-- ==== Sys2Proof/Word.lean ====
section
/-! DEFINITION. The word types of the Goldilocks field engine (spec 00_scope.md R7, R8, R11). -/

set_option Elab.async false

namespace Sys2Proof

/-- A 64-bit word: a limb of storage, a command word, `MASK`, `STATUS` (R7, R8). -/
abbrev Word := BitVec 64

/-- One byte of the byte buffer `B` (10_state.md R22). -/
abbrev Byte := BitVec 8

/-- A 128-bit accumulator of the multiplier (R7 `ACC_BITS`). -/
abbrev Wide := BitVec 128

/-- A register number, `f0` to `f15` (R8 `NREG` = 16). -/
abbrev Reg := Fin 16

/-- A limb number, 0 to 7 (R7 `NLIMBS` = 8). -/
abbrev LimbIx := Fin 8

/-- A field element: eight limbs of 64 bits, limb `i` of weight `2^(56·i)` (R11). -/
abbrev Elem := Vector Word 8

end Sys2Proof
end

