-- ==== Sys2Proof/Machine/Constants.lean ====
section
/-! DEFINITION. The constants of spec 00_scope.md R2, R10 and the reading of an element as a number (R11). -/

namespace Sys2Proof

/-- The prime `p = 2^448 − 2^224 − 1` (R2). -/
def modulus : Nat := 2 ^ 448 - 2 ^ 224 - 1

/-- `M56 = 2^56 − 1` (R10). -/
def m56 : Nat := 2 ^ 56 - 1

/-- `ALL1`, the all-1 mask (R10). -/
def all1 : Word := 0xffffffffffffffff

/-- `ALL0`, the all-0 mask (R10). -/
def all0 : Word := 0

/-- `PL`, the limbs of `p` (R10). -/
def pLimbs : Elem := #v[0x00ffffffffffffff, 0x00ffffffffffffff, 0x00ffffffffffffff, 0x00ffffffffffffff,
  0x00fffffffffffffe, 0x00ffffffffffffff, 0x00ffffffffffffff, 0x00ffffffffffffff]

/-- `ONE` (R10). -/
def one : Elem := #v[1, 0, 0, 0, 0, 0, 0, 0]

/-- `ZERO` (R10). -/
def zero : Elem := #v[0, 0, 0, 0, 0, 0, 0, 0]

/-- The limbs of an element as natural numbers, limb 0 first. -/
def Elem.nats (a : Elem) : List Nat := a.toList.map BitVec.toNat

/-- An element from natural numbers, limb 0 first; each must be below `2^64` (R13, `F[r] <- v`). -/
def Elem.ofNats (l : List Nat) : Elem := Vector.ofFn fun i : Fin 8 => BitVec.ofNat 64 (l.getD i.val 0)

/-- Limb `j` of an element; only `j` in 0 .. 7 is a limb. -/
def Elem.limb (a : Elem) (j : Nat) : Word := a.toList.getD j 0

/-- `Σ l[i]·2^(56·i)` (R11). -/
def valNats : List Nat → Nat
  | [] => 0
  | x :: xs => x + 2 ^ 56 * valNats xs

/-- `val(a)` (R11). -/
def Elem.val (a : Elem) : Nat := valNats a.nats

/-- `limbs(v)` for `v < 2^448` (R11): the limbs of `v` in radix `2^56`. -/
def limbsOf (v : Nat) : Elem := Vector.ofFn fun i : Fin 8 => BitVec.ofNat 64 (v / 2 ^ (56 * i.val) % 2 ^ 56)

end Sys2Proof
end

