-- ==== Sys2Proof/Syntax.lean ====
section
/-! DEFINITION. The command set GF448-CMD: the fourteen commands of spec 30_encoding.md R64 with the
operand fields of R62 and R63. -/

namespace Sys2Proof

/-- One constructor per row of spec/opcode_table.json. Destination first, as in R68. -/
inductive Instr where
  /-- `add fd, fa, fb` (R93) -/
  | add (rd ra rb : Reg)
  /-- `sub fd, fa, fb` (R94) -/
  | sub (rd ra rb : Reg)
  /-- `wred fd`, in place (R95) -/
  | wred (rd : Reg)
  /-- `sred fd`, in place (R97) -/
  | sred (rd : Reg)
  /-- `hibit fa` (R111) -/
  | hibit (ra : Reg)
  /-- `lobit fa` (R112) -/
  | lobit (ra : Reg)
  /-- `eq fa, fb` (R113) -/
  | eq (ra rb : Reg)
  /-- `mul fd, fa, fb` (R123) -/
  | mul (rd ra rb : Reg)
  /-- `sqr fd, fa` (R124) -/
  | sqr (rd ra : Reg)
  /-- `sqrn fd, fa, n` (R125) -/
  | sqrn (rd ra : Reg) (n : BitVec 8)
  /-- `mulw fd, fa, w` (R126) -/
  | mulw (rd ra : Reg) (w : BitVec 32)
  /-- `isr fd, fa` (R142) -/
  | isr (rd ra : Reg)
  /-- `ser fa, h` (R152) -/
  | ser (ra : Reg) (withHibit : Bool)
  /-- `deser fd, h, nm` (R153) -/
  | deser (rd : Reg) (withHibit : Bool) (hiNmask : Byte)
  deriving DecidableEq, Repr

end Sys2Proof
end

