-- ==== Sys2Proof/Machine/State.lean ====
section
/-! DEFINITION. The state of the engine and its host port (spec 10_state.md R21 to R29), the state after reset
(R28), and the reasons a step can stop. -/

namespace Sys2Proof.Machine

/-- The byte buffer `B` (R22) as a sparse list of (address, byte), addresses 0 to 56, in the canonical form
`Memory.wf`: addresses strictly rising, no entry equal to 0, which is what an unlisted address reads as (R28). -/
abbrev Memory := List Host.Cell

/-- The fields of `STATUS` (R24). Its reserved bits read as 0 and hold nothing; `Status.word` is the 64-bit view. -/
structure Status where
  /-- bit 0: 1 from the issue of a legal command until its completion or fault -/
  busy : Bool
  /-- bit 1: 1 once any command has faulted, cleared by reset only -/
  fault : Bool
  /-- bits 7:4: the cause of the first fault (60_exceptions.md R171) -/
  fcause : BitVec 4
  deriving DecidableEq, Repr

/-- The three phases of the engine (R29). -/
inductive Phase where
  | idle
  | busy
  | faulted
  deriving DecidableEq, Repr

/-- The fault causes of 60_exceptions.md R171. -/
inductive FaultCause where
  /-- an illegal word was issued -/
  | illegalCmd
  /-- SER without `with_hibit` on an element whose hibit is set -/
  | assertSerHibit
  /-- the borrow of strong reduction is neither 0 nor −1 -/
  | assertSred
  deriving DecidableEq, Repr

/-- What the host can do (20_memory.md R41), the `wait` of the listings (30_encoding.md R68), the passing of a step
without an action, and bus accesses under the address map (20_memory.md R44, R45, R47). -/
inductive HostOp where
  /-- `HostWriteLimb(r, i, v)` -/
  | writeLimb (r : Reg) (i : LimbIx) (v : Word)
  /-- `HostReadLimb(r, i)` -/
  | readLimb (r : Reg) (i : LimbIx)
  /-- `HostWriteByte(k, v)` -/
  | writeByte (k : Fin 57) (v : Byte)
  /-- `HostReadByte(k)` -/
  | readByte (k : Fin 57)
  /-- `HostIssue(w)` -/
  | issue (w : Word)
  /-- `HostReadStatus()` -/
  | readStatus
  /-- `HostReadMask()` -/
  | readMask
  /-- `Reset()` -/
  | reset
  /-- poll `HostReadStatus` until `BUSY` = 0 -/
  | wait
  /-- the host lets one step pass -/
  | pause
  /-- a bus read of `width` bytes at byte offset `off` from the platform base -/
  | busRead (off width : Nat)
  /-- a bus write of `width` bytes at byte offset `off`; a byte is taken from bits 7:0 of `data` -/
  | busWrite (off width : Nat) (data : Word)
  deriving DecidableEq, Repr

/-- What a host read returns (R41): a 64-bit word or a byte. -/
inductive Reply where
  | word (v : Word)
  | byte (v : Byte)
  deriving DecidableEq, Repr

/-- Everything the spec gives the machine, and the model's own host-side fields. -/
structure State where
  /-- the register file `F` (R21) -/
  f : Vector Elem 16
  /-- the byte buffer `B` (R22) -/
  b : Memory
  /-- `MASK` (R23) -/
  mask : Word
  /-- `STATUS` (R24) -/
  status : Status
  /-- the command word in flight while BUSY, else 0: hidden state (R26, R27) -/
  cmd : Word
  /-- MODEL's own: steps a BUSY engine still needs before it completes (log 2), else 0 -/
  left : Nat
  /-- MODEL's own: the host's pending operations, oldest first (log 1) -/
  host : List HostOp
  /-- MODEL's own: what the last host operation returned (log 1) -/
  reply : Option Reply
  deriving DecidableEq, Repr

/-- Where the machine stops with a fault of the model. The engine's own faults are not among these: they are next
states in phase FAULTED (60_exceptions.md R172). -/
inductive Fault where
  /-- Raised by the completion of a BUSY engine whose latched word is illegal. No run reaches such a state, since an
  illegal word never raises BUSY (30_encoding.md R72). Safe: the model stops (log 9). -/
  | illegalLatch
  deriving DecidableEq, Repr

/-- Where the model gives no step. -/
inductive Refusal where
  /-- Raised by `exec` for an instruction without a meaning; no arm of this model does. Safe. -/
  | notModelled (mnemonic : String)
  /-- Raised by any host operation but a status read, a wait, a pause or a reset while BUSY
  (20_memory.md R42, 93_implementation_defined.md U10 "refuse"). Safe: no step is given (log 8). -/
  | busyHazard
  /-- Raised by a bus access of a width that R45 does not list for its space. Safe: no step is given (log 6). -/
  | badWidth
  /-- Raised by a 64-bit bus access that is not 8-byte aligned (R45). Safe: no step is given (log 6). -/
  | misaligned
  /-- Raised by a bus access to a reserved offset (R47). Safe: no step is given (log 6). -/
  | reservedAddress
  deriving DecidableEq, Repr

/-- The state after `Reset()` (R28, 70_reset_and_hazards.md R190), with a host that does nothing (log 5). -/
def State.reset : State where
  f := Vector.replicate 16 (Vector.replicate 8 0)
  b := []
  mask := 0
  status := { busy := false, fault := false, fcause := 0 }
  cmd := 0
  left := 0
  host := []
  reply := none

end Sys2Proof.Machine
end

