-- ==== Sys2Proof/Machine/Ops.lean ====
section
/-! DEFINITION. The named operations over the byte buffer, the registers and the status of the engine: completion,
taking a fault (spec 60_exceptions.md R172) and reset, the only return from one (R174). -/

namespace Sys2Proof.Machine

/-! ## The byte buffer -/

/-- What an address that is not listed reads as: the reset contents of `B` (10_state.md R28). -/
def Memory.unwritten : Byte := 0

/-- The canonical form: addresses strictly rising, no entry equal to what an unlisted address reads as. -/
abbrev Memory.wf (m : Memory) : Prop :=
  (m.map Prod.fst).Pairwise (· < ·) ∧ ∀ c ∈ m, c.2 ≠ Memory.unwritten

/-- Every listed address is an address of `B`, 0 to 56 (R22). -/
abbrev Memory.inBuffer (m : Memory) : Prop := ∀ c ∈ m, c.1 < 57

/-- `B[k]` -/
def Memory.read : Memory → Nat → Byte
  | [], _ => Memory.unwritten
  | (a, v) :: m, k => if a = k then v else Memory.read m k

/-- `B[k] <- v`, keeping the canonical form. -/
def Memory.write : Memory → Nat → Byte → Memory
  | [], k, v => if v = Memory.unwritten then [] else [(k, v)]
  | (a, w) :: m, k, v =>
    if k < a then (if v = Memory.unwritten then (a, w) :: m else (k, v) :: (a, w) :: m)
    else if k = a then (if v = Memory.unwritten then m else (a, v) :: m)
    else (a, w) :: Memory.write m k v

/-- `MemRead(k, n)` (00_scope.md R13) -/
def Memory.readBytes (m : Memory) (k n : Nat) : List Byte := (List.range n).map fun j => m.read (k + j)

/-- `MemWrite(k, n, bytes)` (00_scope.md R13) -/
def Memory.writeBytes : Memory → Nat → List Byte → Memory
  | m, _, [] => m
  | m, k, v :: vs => Memory.writeBytes (m.write k v) (k + 1) vs

/-! ## Registers -/

/-- `F[r]` -/
def State.reg (s : State) (r : Reg) : Elem := s.f[r.val]

/-- `F[r] <- v` -/
def State.writeReg (s : State) (r : Reg) (v : Elem) : State := { s with f := s.f.set r.val v }

/-- `F[r][i]` -/
def State.readLimb (s : State) (r : Reg) (i : LimbIx) : Word := (s.reg r)[i.val]

/-- `F[r][i] <- v` -/
def State.writeLimb (s : State) (r : Reg) (i : LimbIx) (v : Word) : State :=
  s.writeReg r ((s.reg r).set i.val v)

/-- `MASK <- m` -/
def State.writeMask (s : State) (m : Word) : State := { s with mask := m }

/-- the buffer `B` replaced -/
def State.writeB (s : State) (b : Memory) : State := { s with b := b }

/-! ## Status and phase -/

/-- The 64-bit word a read of `STATUS` returns (10_state.md R24). -/
def Status.word (t : Status) : Word :=
  (0 : BitVec 56) ++ t.fcause ++ (0 : BitVec 2) ++ BitVec.ofBool t.fault ++ BitVec.ofBool t.busy

/-- The phase, a function of `STATUS` (10_state.md R29). BUSY and FAULT are never both 1; the model calls such a
state FAULTED (log 9). -/
def State.phase (s : State) : Phase :=
  if s.status.fault then .faulted else if s.status.busy then .busy else .idle

/-- `FCAUSE` of a fault cause (60_exceptions.md R171). -/
def FaultCause.code : FaultCause → BitVec 4
  | .illegalCmd => 1
  | .assertSerHibit => 2
  | .assertSred => 3

/-- Completion of a command (30_encoding.md R72): `BUSY` falls, hidden state is cleared (10_state.md R27). -/
def State.retire (s : State) : State :=
  { s with status := { s.status with busy := false }, cmd := 0, left := 0 }

/-- Fault entry (60_exceptions.md R172): `BUSY <- 0`, `FAULT <- 1`, `FCAUSE <- c`; `F`, `B`, `MASK` unchanged; hidden
state cleared. -/
def State.enterFault (s : State) (c : FaultCause) : State :=
  { s with status := { busy := false, fault := true, fcause := c.code }, cmd := 0, left := 0 }

/-- `Reset()` (70_reset_and_hazards.md R190): every piece of the machine's state as after reset; the host goes on with
the operations `rest`. It is the only exit from FAULTED (60_exceptions.md R174). -/
def State.applyReset (rest : List HostOp) : State := { State.reset with host := rest }

/-- The end of a command: its writes and completion, or the fault it raised with no write at all (30_encoding.md R72).
Both are next states. -/
def conclude (s : State) (r : Except FaultCause State) : Host.Outcome State Fault Refusal :=
  .next (match r with
    | .ok t => t.retire
    | .error c => s.enterFault c)

end Sys2Proof.Machine
end

