-- ==== Sys2Proof/Machine/Operands.lean ====
section
/-! DEFINITION. Operands of the datapaths: raw limb-wise sums and differences (spec 40_addsub_reduce.md R93, R94).
Registers are read whole and written whole (30_encoding.md R70), through `State.reg` and `State.writeReg` of Ops. -/

namespace Sys2Proof.Machine

/-- `raw[i] = (a[i] + b[i]) mod 2^64` (R93). -/
def rawAdd (a b : Elem) : Elem := Vector.ofFn fun i : LimbIx => a[i.val] + b[i.val]

/-- `raw[i] = (a[i] − b[i] + 2·PL[i]) mod 2^64` (R94): the bias is `2p`. -/
def rawSub (a b : Elem) : Elem := Vector.ofFn fun i : LimbIx => a[i.val] - b[i.val] + 2 * pLimbs[i.val]

end Sys2Proof.Machine
end

