-- ==== Sys2Proof/Machine/Reduce.lean ====
section
/-! DEFINITION. The reduction unit: ripple and fold `RF` (spec 40_addsub_reduce.md R91) and strong reduction `SR`
(R96). -/

namespace Sys2Proof.Machine

/-- The carry chain of R91: 56 bits stay, the rest goes to the next limb; the last carry is returned. -/
def ripple : Nat → List Nat → List Nat × Nat
  | c, [] => ([], c)
  | c, x :: xs => ((x + c) % 2 ^ 56 :: (ripple ((x + c) / 2 ^ 56) xs).1, (ripple ((x + c) / 2 ^ 56) xs).2)

/-- The fold of R91: the carry out of limb 7 is added to limb 0 and limb 4. -/
def foldCarry (out : List Nat) (c : Nat) : List Nat := (out.modify 0 (· + c)).modify 4 (· + c)

/-- The vector `RF(C)` (R91) on coefficients of any size. -/
def rippleFold (C : List Nat) : List Nat := foldCarry (ripple 0 C).1 (ripple 0 C).2

/-- `RF` of the limbs of an element. -/
def weakReduce (a : Elem) : Elem := Elem.ofNats (rippleFold a.nats)

/-- `RF(RF(C))`: the carry propagation after a multiplication (42_multiply.md R123). -/
def rippleFoldTwice (C : List Nat) : Elem := Elem.ofNats (rippleFold (rippleFold C))

/-- The borrow-propagating pass of R96: subtract limb by limb, floor division by `2^56`, signed borrow. -/
def borrowPass : Int → List Nat → List Nat → List Nat × Int
  | s, r :: rs, q :: qs =>
    (((s + r - q) % 2 ^ 56).toNat :: (borrowPass ((s + r - q) / 2 ^ 56) rs qs).1,
      (borrowPass ((s + r - q) / 2 ^ 56) rs qs).2)
  | s, _, _ => ([], s)

/-- The add-back of R96: `PL` masked by the borrow is added, the carry out is dropped. -/
def addBack (r : List Nat) (s : Int) : List Nat :=
  (ripple 0 (List.zipWith (· + ·) r (pLimbs.nats.map fun q => if s = -1 then q else 0))).1

/-- `SR(a)` (R96): weak-reduce, subtract `p` once, add it back if the borrow is −1. A borrow that is neither 0 nor −1
raises `ASSERT_SRED`. -/
def strongReduce (a : Elem) : Except FaultCause Elem :=
  let d := borrowPass 0 (rippleFold a.nats) pLimbs.nats
  if d.2 = 0 ∨ d.2 = -1 then .ok (Elem.ofNats (addBack d.1 d.2)) else .error .assertSred

end Sys2Proof.Machine
end

