-- ==== Sys2Proof/Machine/Flags.lean ====
section
/-! DEFINITION. The mask computations, the engine's only flag (spec 10_state.md R23; 41_predicates.md R111 to R113). -/

namespace Sys2Proof.Machine

/-- A predicate as a mask: true is `ALL1`, false is `ALL0` (R23). -/
def maskOf (p : Bool) : Word := if p then all1 else all0

/-- The mask of the low bit of an element's limb 0. -/
def lowBitMask (y : Elem) : Word := maskOf (y[0].getLsbD 0)

/-- `HIBITV(x)` (R111): double on the ADD datapath, strong-reduce, low bit. -/
def hibitV (x : Elem) : Except FaultCause Word := (strongReduce (weakReduce (rawAdd x x))).map lowBitMask

/-- The mask of LOBIT (R112): strong-reduce a copy, low bit. -/
def lobitV (x : Elem) : Except FaultCause Word := (strongReduce x).map lowBitMask

/-- The logical OR of all limbs (R113). -/
def orLimbs (c : Elem) : Word := c.toList.foldl (· ||| ·) 0

/-- The mask of EQ (R113): subtract on the SUB datapath, strong-reduce, OR of all limbs is zero. -/
def eqV (a b : Elem) : Except FaultCause Word :=
  (strongReduce (weakReduce (rawSub a b))).map fun c => maskOf (orLimbs c == 0)

end Sys2Proof.Machine
end

