-- ==== Sys2Proof/Machine/AddSub.lean ====
section
/-! DEFINITION. ADD, SUB, WRED, SRED (spec 40_addsub_reduce.md R93 to R97). -/

namespace Sys2Proof.Machine

/-- `add fd, fa, fb` (R93): raw limb-wise sum, no bias, then `RF`. -/
def execAdd (rd ra rb : Reg) (s : State) : Host.Outcome State Fault Refusal :=
  conclude s (.ok (s.writeReg rd (weakReduce (rawAdd (s.reg ra) (s.reg rb)))))

/-- `sub fd, fa, fb` (R94): raw limb-wise difference with the bias `2p`, then `RF`. -/
def execSub (rd ra rb : Reg) (s : State) : Host.Outcome State Fault Refusal :=
  conclude s (.ok (s.writeReg rd (weakReduce (rawSub (s.reg ra) (s.reg rb)))))

/-- `wred fd` (R95): `RF` in place. -/
def execWred (rd : Reg) (s : State) : Host.Outcome State Fault Refusal :=
  conclude s (.ok (s.writeReg rd (weakReduce (s.reg rd))))

/-- `sred fd` (R97): `SR` in place. -/
def execSred (rd : Reg) (s : State) : Host.Outcome State Fault Refusal :=
  conclude s ((strongReduce (s.reg rd)).map fun y => s.writeReg rd y)

end Sys2Proof.Machine
end

