-- ==== Sys2Proof/Machine/Multiply.lean ====
section
/-! DEFINITION. MUL, SQR, SQRN, MULW (spec 42_multiply.md R121 to R126). -/

namespace Sys2Proof.Machine

/-- An exact 64 × 64 → 128-bit unsigned product (00_scope.md R14). -/
def wideMul (x y : Word) : Wide := x.setWidth 128 * y.setWidth 128

/-- `aa[j] = (a[j] + a[j+4]) mod 2^64`; on `b` it is `bb[j]` (R121). -/
def crossSum (a : Elem) (j : Nat) : Word := Elem.limb a j + Elem.limb a (j + 4)

/-- `bbb[j] = (bb[j] + b[j+4]) mod 2^64` (R121). -/
def crossSum2 (b : Elem) (j : Nat) : Word := crossSum b j + Elem.limb b (j + 4)

/-- A 128-bit sum of products over a list of indices. -/
def accumulate (term : Nat → Wide) (js : List Nat) : Wide := js.foldl (fun acc j => acc + term j) 0

/-- `j` in `0..i`: the part of degree `i` (R121). -/
def degreeLow (i : Nat) : List Nat := List.range (i + 1)

/-- `j` in `i+1..3`: the part of degree `i+4`, wrapped by `2^224` (R121). -/
def degreeHigh (i : Nat) : List Nat := (List.range 4).drop (i + 1)

/-- `accum2` of coefficient `i`: pure-low products, then `a_lo · b_hi` (R121). -/
def accum2 (a b : Elem) (i : Nat) : Wide :=
  accumulate (fun j => wideMul (Elem.limb a j) (Elem.limb b (i - j))) (degreeLow i) +
    accumulate (fun j => wideMul (Elem.limb a j) (Elem.limb b (i + 8 - j))) (degreeHigh i)

/-- `accum1` of coefficient `i`: cross products `aa · bb`, then `aa · bbb` (R121). -/
def accum1 (a b : Elem) (i : Nat) : Wide :=
  accumulate (fun j => wideMul (crossSum a j) (crossSum b (i - j))) (degreeLow i) +
    accumulate (fun j => wideMul (crossSum a j) (crossSum2 b (i + 4 - j))) (degreeHigh i)

/-- `accum0` of coefficient `i`: pure-high products, then `a_hi · bb` (R121). -/
def accum0 (a b : Elem) (i : Nat) : Wide :=
  accumulate (fun j => wideMul (Elem.limb a (j + 4)) (Elem.limb b (i - j + 4))) (degreeLow i) +
    accumulate (fun j => wideMul (Elem.limb a (j + 4)) (crossSum b (i + 4 - j))) (degreeHigh i)

/-- `MULCOEF(a, b)` (R121): `C[i] = accum0 + accum2`, `C[i+4] = accum1 − accum2`, mod `2^128`. -/
def mulCoef (a b : Elem) : List Nat :=
  (List.range 4).map (fun i => (accum0 a b i + accum2 a b i).toNat) ++
    (List.range 4).map (fun i => (accum1 a b i - accum2 a b i).toNat)

/-- The MUL datapath (R123). -/
def mulElem (a b : Elem) : Elem := rippleFoldTwice (mulCoef a b)

/-- The SQR datapath (R124): the limbs of `mul` on equal operands. -/
def sqrElem (a : Elem) : Elem := rippleFoldTwice (mulCoef a a)

/-- The SQRN datapath (R125): `n` applications of SQR, each on the result of the last. -/
def sqrnElem : Nat → Elem → Elem
  | 0, y => y
  | n + 1, y => sqrnElem n (sqrElem y)

/-- The MULW datapath (R126): `C[i] = w·a[i]`, exact. -/
def mulwElem (a : Elem) (w : BitVec 32) : Elem := rippleFoldTwice (a.nats.map (w.toNat * ·))

/-- `mul fd, fa, fb` (R123). -/
def execMul (rd ra rb : Reg) (s : State) : Host.Outcome State Fault Refusal :=
  conclude s (.ok (s.writeReg rd (mulElem (s.reg ra) (s.reg rb))))

/-- `sqr fd, fa` (R124). -/
def execSqr (rd ra : Reg) (s : State) : Host.Outcome State Fault Refusal :=
  conclude s (.ok (s.writeReg rd (sqrElem (s.reg ra))))

/-- `sqrn fd, fa, n` (R125), `n` in 1 .. 255. The ill-formed `n` = 0 has no legal word; given to `exec` directly it
takes the fault of an illegal command (30_encoding.md R65, log 9). -/
def execSqrn (rd ra : Reg) (n : BitVec 8) (s : State) : Host.Outcome State Fault Refusal :=
  conclude s (if n = 0 then .error .illegalCmd else .ok (s.writeReg rd (sqrnElem n.toNat (s.reg ra))))

/-- `mulw fd, fa, w` (R126). -/
def execMulw (rd ra : Reg) (w : BitVec 32) (s : State) : Host.Outcome State Fault Refusal :=
  conclude s (.ok (s.writeReg rd (mulwElem (s.reg ra) w)))

end Sys2Proof.Machine
end

