-- ==== Sys2Proof/Machine/Isr.lean ====
section
/-! DEFINITION. ISR, the inverse square root (spec 43_isr.md R141, R142). The chain is the one of R141, which the spec
marks as general knowledge, not in its source (log 11). -/

namespace Sys2Proof.Machine

/-- Steps 1 to 8 of R141: `L0` with exponent `2^9 − 1`. -/
def isrSteps1to8 (x : Elem) : Elem :=
  let l1 := sqrElem x
  let l2 := mulElem x l1
  let l1 := sqrElem l2
  let l2 := mulElem x l1
  let l1 := sqrnElem 3 l2
  let l0 := mulElem l2 l1
  let l1 := sqrnElem 3 l0
  mulElem l2 l1

/-- Steps 9 to 14 of R141 from `L0` of step 8: `L2` with exponent `2^37 − 1`. -/
def isrSteps9to14 (x l0 : Elem) : Elem :=
  let l2 := sqrnElem 9 l0
  let l1 := mulElem l0 l2
  let l0 := sqrElem l1
  let l2 := mulElem x l0
  let l0 := sqrnElem 18 l2
  mulElem l1 l0

/-- Steps 15 to 20 of R141 from `L2` of step 14: `L2` with exponent `2^222 − 1`. -/
def isrSteps15to20 (l2 : Elem) : Elem :=
  let l0 := sqrnElem 37 l2
  let l1 := mulElem l2 l0
  let l0 := sqrnElem 37 l1
  let l1 := mulElem l2 l0
  let l0 := sqrnElem 111 l1
  mulElem l1 l0

/-- Steps 21 to 24 of R141 from `L2` of step 20: the candidate `L1`, exponent `(p − 3)/4`. -/
def isrSteps21to24 (x l2 : Elem) : Elem :=
  let l0 := sqrElem l2
  let l1 := mulElem x l0
  let l0 := sqrnElem 223 l1
  mulElem l2 l0

/-- The candidate root, `L1` after step 24 of R141. -/
def isrCandidate (x : Elem) : Elem :=
  isrSteps21to24 x (isrSteps15to20 (isrSteps9to14 x (isrSteps1to8 x)))

/-- Steps 25 and 26 of R141, the check: the candidate re-squared, times `x`. -/
def isrCheck (x l1 : Elem) : Elem := mulElem (sqrElem l1) x

/-- `isr fd, fa` (R142): the candidate is written, success or not; `MASK` is the mask of EQ of the check and `ONE`. -/
def execIsr (rd ra : Reg) (s : State) : Host.Outcome State Fault Refusal :=
  conclude s ((eqV (isrCheck (s.reg ra) (isrCandidate (s.reg ra))) one).map fun m =>
    (s.writeReg rd (isrCandidate (s.reg ra))).writeMask m)

end Sys2Proof.Machine
end

