-- ==== Sys2Proof/Machine/Predicates.lean ====
section
/-! DEFINITION. HIBIT, LOBIT, EQ (spec 41_predicates.md R110 to R113): internal copies only, `MASK` written. -/

namespace Sys2Proof.Machine

/-- `hibit fa` (R111). -/
def execHibit (ra : Reg) (s : State) : Host.Outcome State Fault Refusal :=
  conclude s ((hibitV (s.reg ra)).map fun m => s.writeMask m)

/-- `lobit fa` (R112). -/
def execLobit (ra : Reg) (s : State) : Host.Outcome State Fault Refusal :=
  conclude s ((lobitV (s.reg ra)).map fun m => s.writeMask m)

/-- `eq fa, fb` (R113). -/
def execEq (ra rb : Reg) (s : State) : Host.Outcome State Fault Refusal :=
  conclude s ((eqV (s.reg ra) (s.reg rb)).map fun m => s.writeMask m)

end Sys2Proof.Machine
end

