-- ==== Sys2Proof/Machine/Serdes.lean ====
section
/-! DEFINITION. SER and DESER (spec 44_serdes.md R151 to R153). -/

namespace Sys2Proof.Machine

/-- The seven bytes of a limb, low byte first (R151). -/
def limbBytes (l : Nat) : List Byte := (List.range 7).map fun k => BitVec.ofNat 8 (l / 2 ^ (8 * k))

/-- The 56 bytes of a canonical element: limb `i` in bytes `7i` to `7i+6` (R151). -/
def elemBytes (r : Elem) : List Byte := r.nats.flatMap limbBytes

/-- What SER leaves in `B`: bytes 0 to 55, and byte 56 = 0 when `with_hibit` = 1 (R152). -/
def serBuffer (b : Memory) (r : Elem) (withHibit : Bool) : Memory :=
  if withHibit then (b.writeBytes 0 (elemBytes r)).write 56 0 else b.writeBytes 0 (elemBytes r)

/-- `ser fa, h` (R152). The hibit of the canonical value is asserted clear when `with_hibit` = 0, before any byte is
written. -/
def execSer (ra : Reg) (withHibit : Bool) (s : State) : Host.Outcome State Fault Refusal :=
  conclude s ((strongReduce (s.reg ra)).bind fun r => (hibitV r).bind fun h =>
    if !withHibit && h == all1 then .error .assertSerHibit
    else .ok (s.writeB (serBuffer s.b r withHibit)))

/-- The bytes DESER reads, `hi_nmask` cleared from the final byte, number `n − 1` with `n` = 56 or 57 (R153). -/
def deserBytes (b : Memory) (withHibit : Bool) (hiNmask : Byte) : List Byte :=
  if withHibit then (b.readBytes 0 57).modify 56 (· &&& ~~~hiNmask)
  else (b.readBytes 0 56).modify 55 (· &&& ~~~hiNmask)

/-- `Σ bytes[k]·2^(8k)`, little-endian (R151). -/
def bytesNat : List Byte → Nat
  | [] => 0
  | v :: vs => v.toNat + 2 ^ 8 * bytesNat vs

/-- The limbs unpacked from the first 56 bytes: limb `i` from bytes `7i` to `7i+6` (R153). -/
def unpack (bytes : List Byte) : Elem :=
  Elem.ofNats ((List.range 8).map fun i => bytesNat ((bytes.drop (7 * i)).take 7))

/-- The borrow chain of R153 against `PL`, floor division by `2^64`: the final `sc`. -/
def rangeBorrow : Int → List Nat → List Nat → Int
  | sc, x :: xs, q :: qs => rangeBorrow ((sc + x - q) / 2 ^ 64) xs qs
  | sc, _, _ => sc

/-- `deser fd, h, nm` (R153). `F[rd]` is written on success and on failure; `MASK` is `ALL1` when the value is below `p`,
no bit at or above `2^448` is left, and the hibit is clear or allowed. -/
def execDeser (rd : Reg) (withHibit : Bool) (hiNmask : Byte) (s : State) : Host.Outcome State Fault Refusal :=
  let bytes := deserBytes s.b withHibit hiNmask
  let x := unpack bytes
  let left : Byte := if withHibit then bytes.getD 56 0 else 0
  let inRange := rangeBorrow 0 x.nats pLimbs.nats == -1
  conclude s ((hibitV x).map fun h =>
    (s.writeReg rd x).writeMask (maskOf (inRange && left == 0 && (withHibit || h == all0))))

end Sys2Proof.Machine
end

