-- ==== Sys2Proof/Machine/Dispatch.lean ====
section
/-! DEFINITION. The meaning of each command: one arm per constructor of Instr. -/

namespace Sys2Proof.Machine

/-- The completion of the command `i` from the state `s` (spec 30_encoding.md R72): its writes, or the fault it takes. -/
def exec (i : Instr) (s : State) : Host.Outcome State Fault Refusal :=
  match i with
  | .add rd ra rb => Sys2Proof.Machine.execAdd rd ra rb s
  | .sub rd ra rb => Sys2Proof.Machine.execSub rd ra rb s
  | .wred rd => Sys2Proof.Machine.execWred rd s
  | .sred rd => Sys2Proof.Machine.execSred rd s
  | .hibit ra => Sys2Proof.Machine.execHibit ra s
  | .lobit ra => Sys2Proof.Machine.execLobit ra s
  | .eq ra rb => Sys2Proof.Machine.execEq ra rb s
  | .mul rd ra rb => Sys2Proof.Machine.execMul rd ra rb s
  | .sqr rd ra => Sys2Proof.Machine.execSqr rd ra s
  | .sqrn rd ra n => Sys2Proof.Machine.execSqrn rd ra n s
  | .mulw rd ra w => Sys2Proof.Machine.execMulw rd ra w s
  | .isr rd ra => Sys2Proof.Machine.execIsr rd ra s
  | .ser ra withHibit => Sys2Proof.Machine.execSer ra withHibit s
  | .deser rd withHibit hiNmask => Sys2Proof.Machine.execDeser rd withHibit hiNmask s

end Sys2Proof.Machine
end

