-- ==== Sys2Proof/Config.lean ====
section
/-! DEFINITION. What an implementation fixes and the spec leaves open: `DURATION` and `ADDR_MAP`
(spec 00_scope.md R8, R16). -/

namespace Sys2Proof

/-- `DURATION` (70_reset_and_hazards.md R195, R196): how long a command runs, here as the number of steps
of the machine between issue and completion that the engine spends BUSY. A FREE VALUE (log 2): it is finite and
depends on the opcode and, for SQRN, on `n` only; nothing else about it is known. -/
opaque Config.duration (op n : BitVec 8) : Nat

/-- `ADDR_MAP` (20_memory.md R47): byte offsets of the ports from the platform base. -/
structure AddrMap where
  /-- offset of `F[0][0]`; register `r` stands `0x40·r` above, limb `i` another `8·i` -/
  f : Nat
  /-- offset of `B[0]`; byte `k` stands `k` above -/
  b : Nat
  /-- offset of the write-only port `CMD` -/
  cmd : Nat
  /-- offset of the read-only register `STATUS` -/
  status : Nat
  /-- offset of the read-only register `MASK` -/
  mask : Nat
  deriving DecidableEq, Repr

end Sys2Proof
end

