-- ==== Sys2Proof/WellFormed.lean ====
section
/-! DEFINITION. Well-formed commands: the one range check that the operand types do not make
(spec 30_encoding.md R63, R65: SQRN takes n in 1 .. 255). -/

namespace Sys2Proof

/-- The command can be written as a legal word (R63, R65). -/
def Instr.wf : Instr → Bool
  | .add _ _ _ => true
  | .sub _ _ _ => true
  | .wred _ => true
  | .sred _ => true
  | .hibit _ => true
  | .lobit _ => true
  | .eq _ _ => true
  | .mul _ _ _ => true
  | .sqr _ _ => true
  | .sqrn _ _ n => n != 0
  | .mulw _ _ _ => true
  | .isr _ _ => true
  | .ser _ _ => true
  | .deser _ _ _ => true

end Sys2Proof
end

