-- ==== Sys2Proof/Decode.lean ====
section
/-! DEFINITION. Decoding and encoding of command words (spec 30_encoding.md R60 to R65), and the opcode map
of R64 as a table of its own. -/

namespace Sys2Proof

/-! ## Fields (R61, R63) -/

/-- bits 7:0 -/
def opField (w : Word) : BitVec 8 := w.extractLsb' 0 8

/-- bits 11:8 -/
def rdField (w : Word) : Reg := (w.extractLsb' 8 4).toFin

/-- bits 15:12 -/
def raField (w : Word) : Reg := (w.extractLsb' 12 4).toFin

/-- bits 19:16 -/
def rbField (w : Word) : Reg := (w.extractLsb' 16 4).toFin

/-- bits 31:20, reserved -/
def rsvField (w : Word) : BitVec 12 := w.extractLsb' 20 12

/-- bits 63:32 -/
def immField (w : Word) : BitVec 32 := w.extractLsb' 32 32

/-! ## Decoding -/

/-- Why a word is illegal (R65). -/
inductive IllegalWord where
  /-- `op` is `0x00` or `0x0f` .. `0xff` -/
  | unassignedOpcode
  /-- a bit of `rsv` is set -/
  | reservedBits
  /-- a register field that the format marks "0" is not 0 -/
  | unusedRegister
  /-- an immediate bit that the format does not use is not 0 -/
  | unusedImmediate
  /-- SQRN with `n` = 0 -/
  | zeroCount
  deriving DecidableEq, Repr

/-- The command `i` if the must-be-zero conditions of its format hold, else the first that fails. -/
def checked (rsv regs imm : Bool) (i : Instr) : Except IllegalWord Instr :=
  if !rsv then .error .reservedBits
  else if !regs then .error .unusedRegister
  else if !imm then .error .unusedImmediate
  else if !i.wf then .error .zeroCount
  else .ok i

/-- Decoding is total: every 64-bit word is one command with all its fields, or illegal (R62 to R65, R72). -/
def decode (w : Word) : Except IllegalWord Instr :=
  let rsv := rsvField w == 0
  let rd0 := rdField w == 0
  let ra0 := raField w == 0
  let rb0 := rbField w == 0
  let imm := immField w
  match (opField w).toNat with
  | 0x01 => checked rsv true (imm == 0) (.add (rdField w) (raField w) (rbField w))
  | 0x02 => checked rsv true (imm == 0) (.sub (rdField w) (raField w) (rbField w))
  | 0x03 => checked rsv (ra0 && rb0) (imm == 0) (.wred (rdField w))
  | 0x04 => checked rsv (ra0 && rb0) (imm == 0) (.sred (rdField w))
  | 0x05 => checked rsv (rd0 && rb0) (imm == 0) (.hibit (raField w))
  | 0x06 => checked rsv (rd0 && rb0) (imm == 0) (.lobit (raField w))
  | 0x07 => checked rsv rd0 (imm == 0) (.eq (raField w) (rbField w))
  | 0x08 => checked rsv true (imm == 0) (.mul (rdField w) (raField w) (rbField w))
  | 0x09 => checked rsv rb0 (imm == 0) (.sqr (rdField w) (raField w))
  | 0x0a => checked rsv rb0 (imm.extractLsb' 8 24 == 0) (.sqrn (rdField w) (raField w) (imm.extractLsb' 0 8))
  | 0x0b => checked rsv rb0 true (.mulw (rdField w) (raField w) imm)
  | 0x0c => checked rsv rb0 (imm == 0) (.isr (rdField w) (raField w))
  | 0x0d => checked rsv (rd0 && rb0) (imm.extractLsb' 1 31 == 0) (.ser (raField w) (imm.getLsbD 0))
  | 0x0e => checked rsv (ra0 && rb0) (imm.extractLsb' 1 7 == 0 && imm.extractLsb' 16 16 == 0)
      (.deser (rdField w) (imm.getLsbD 0) (imm.extractLsb' 8 8))
  | _ => .error .unassignedOpcode

/-- The decoder on an opcode-table word: bit 0 is the least significant bit of the one 64-bit command word, bits at
and above `nbits` are 0. A command has no second word (R60), so a number of 65 bits or more is no command. -/
def decodeTableWord (nbits w : Nat) : Option Instr :=
  if w % 2 ^ nbits < 2 ^ 64 then (decode (BitVec.ofNat 64 (w % 2 ^ nbits))).toOption else none

/-! ## Encoding -/

/-- A command word from its fields, `rsv` = 0 (R61). -/
def assemble (op : BitVec 8) (rd ra rb : Reg) (imm : BitVec 32) : Word :=
  imm ++ (0 : BitVec 12) ++ (BitVec.ofFin rb : BitVec 4) ++ (BitVec.ofFin ra : BitVec 4) ++
    (BitVec.ofFin rd : BitVec 4) ++ op

/-- The word of a command (R61 to R64). -/
def encode : Instr → Word
  | .add rd ra rb => assemble 0x01 rd ra rb 0
  | .sub rd ra rb => assemble 0x02 rd ra rb 0
  | .wred rd => assemble 0x03 rd 0 0 0
  | .sred rd => assemble 0x04 rd 0 0 0
  | .hibit ra => assemble 0x05 0 ra 0 0
  | .lobit ra => assemble 0x06 0 ra 0 0
  | .eq ra rb => assemble 0x07 0 ra rb 0
  | .mul rd ra rb => assemble 0x08 rd ra rb 0
  | .sqr rd ra => assemble 0x09 rd ra 0 0
  | .sqrn rd ra n => assemble 0x0a rd ra 0 ((0 : BitVec 24) ++ n)
  | .mulw rd ra w => assemble 0x0b rd ra 0 w
  | .isr rd ra => assemble 0x0c rd ra 0 0
  | .ser ra h => assemble 0x0d 0 ra 0 ((0 : BitVec 31) ++ BitVec.ofBool h)
  | .deser rd h nm => assemble 0x0e rd 0 0 ((0 : BitVec 16) ++ nm ++ (0 : BitVec 7) ++ BitVec.ofBool h)

/-! ## The opcode map (R64) -/

/-- One row of the opcode map: a word `w` encodes the command when `w &&& mask = value` (R64). -/
structure OpcodeRow where
  mnemonic : String
  value : Word
  mask : Word
  deriving DecidableEq, Repr

/-- The complete opcode map, transcribed from the table of R64. -/
def opcodeMap : List OpcodeRow :=
  [⟨"add", 0x0000000000000001, 0xfffffffffff000ff⟩, ⟨"sub", 0x0000000000000002, 0xfffffffffff000ff⟩,
   ⟨"wred", 0x0000000000000003, 0xfffffffffffff0ff⟩, ⟨"sred", 0x0000000000000004, 0xfffffffffffff0ff⟩] ++
  [⟨"hibit", 0x0000000000000005, 0xffffffffffff0fff⟩, ⟨"lobit", 0x0000000000000006, 0xffffffffffff0fff⟩,
   ⟨"eq", 0x0000000000000007, 0xfffffffffff00fff⟩, ⟨"mul", 0x0000000000000008, 0xfffffffffff000ff⟩,
   ⟨"sqr", 0x0000000000000009, 0xffffffffffff00ff⟩] ++
  [⟨"sqrn", 0x000000000000000a, 0xffffff00ffff00ff⟩, ⟨"mulw", 0x000000000000000b, 0x00000000ffff00ff⟩,
   ⟨"isr", 0x000000000000000c, 0xffffffffffff00ff⟩, ⟨"ser", 0x000000000000000d, 0xfffffffeffff0fff⟩,
   ⟨"deser", 0x000000000000000e, 0xffff00fefffff0ff⟩]

/-- The mnemonic of a command, as the opcode map spells it. -/
def Instr.mnemonic : Instr → String
  | .add _ _ _ => "add"
  | .sub _ _ _ => "sub"
  | .wred _ => "wred"
  | .sred _ => "sred"
  | .hibit _ => "hibit"
  | .lobit _ => "lobit"
  | .eq _ _ => "eq"
  | .mul _ _ _ => "mul"
  | .sqr _ _ => "sqr"
  | .sqrn _ _ _ => "sqrn"
  | .mulw _ _ _ => "mulw"
  | .isr _ _ => "isr"
  | .ser _ _ => "ser"
  | .deser _ _ _ => "deser"

/-- The row of the opcode map that a word matches, with the side condition of SQRN, `n ≠ 0` (R64). -/
def OpcodeRow.admits (row : OpcodeRow) (w : Word) : Bool :=
  w &&& row.mask == row.value && (row.value != 0x0a || w.extractLsb' 32 8 != 0)

end Sys2Proof
end

