-- ==== Sys2Proof/Machine/HostPort.lean ====
section
/-! DEFINITION. The host port (spec 20_memory.md R41 to R48): what each host operation does in each phase, the issue of
a command (30_encoding.md R72) and the default address map (R47). -/

namespace Sys2Proof.Machine

/-! ## What an operation reaches -/

/-- The ports of R40: a limb of `F`, a byte of `B`, or a control word. -/
inductive Port where
  | limb (r : Reg) (i : LimbIx)
  | byte (k : Fin 57)
  | cmd
  | status
  | mask
  deriving DecidableEq, Repr

/-- A host operation as one access. -/
inductive Access where
  | read (p : Port)
  | write (p : Port) (data : Word)
  | reset
  | wait
  | pause
  deriving DecidableEq, Repr

/-- The default binding of `ADDR_MAP` (R47). -/
def defaultAddrMap : AddrMap := { f := 0x000, b := 0x400, cmd := 0x440, status := 0x448, mask := 0x450 }

/-- A 64-bit port takes aligned 64-bit accesses only (R45). -/
def wordAccess (off width : Nat) (p : Port) : Except Refusal Port :=
  if width ≠ 8 then .error .badWidth else if off % 8 ≠ 0 then .error .misaligned else .ok p

/-- The port at a byte offset from the platform base, for an access of `width` bytes (R45, R47). -/
def busPort (m : AddrMap) (off width : Nat) : Except Refusal Port :=
  if m.f ≤ off ∧ off < m.f + 0x400 then
    wordAccess off width (.limb (Fin.ofNat 16 ((off - m.f) / 0x40)) (Fin.ofNat 8 ((off - m.f) % 0x40 / 8)))
  else if m.b ≤ off ∧ off < m.b + 57 then
    (if width = 1 then .ok (.byte (Fin.ofNat 57 (off - m.b))) else .error .badWidth)
  else if m.cmd ≤ off ∧ off < m.cmd + 8 then wordAccess off width .cmd
  else if m.status ≤ off ∧ off < m.status + 8 then wordAccess off width .status
  else if m.mask ≤ off ∧ off < m.mask + 8 then wordAccess off width .mask
  else .error .reservedAddress

/-- The access a host operation makes, or why it has no step in any phase (R45, R47). -/
def HostOp.access : HostOp → Except Refusal Access
  | .writeLimb r i v => .ok (.write (.limb r i) v)
  | .readLimb r i => .ok (.read (.limb r i))
  | .writeByte k v => .ok (.write (.byte k) (v.setWidth 64))
  | .readByte k => .ok (.read (.byte k))
  | .issue w => .ok (.write .cmd w)
  | .readStatus => .ok (.read .status)
  | .readMask => .ok (.read .mask)
  | .reset => .ok .reset
  | .wait => .ok .wait
  | .pause => .ok .pause
  | .busRead off width =>
    match busPort defaultAddrMap off width with
    | .ok p => .ok (.read p)
    | .error r => .error r
  | .busWrite off width data =>
    match busPort defaultAddrMap off width with
    | .ok p => .ok (.write p data)
    | .error r => .error r

/-! ## Issue, reads and writes -/

/-- `DURATION` of a command word: a function of the opcode and, for SQRN, of `n` (70_reset_and_hazards.md R196). -/
def commandDuration (w : Word) : Nat :=
  Config.duration (opField w) (if opField w = 0x0a then w.extractLsb' 32 8 else 0)

/-- `HostIssue(w)` in phase IDLE (30_encoding.md R72): an illegal word faults, a legal one makes the engine BUSY.
The operands count as latched here (R70): nothing writes `F` or `B` while BUSY (log 3). -/
def State.issueCommand (s : State) (w : Word) : State :=
  match decode w with
  | .error _ => s.enterFault .illegalCmd
  | .ok _ => { s with status := { s.status with busy := true }, cmd := w, left := commandDuration w }

/-- What a read of a port returns (R41, R47). -/
def State.readPort (s : State) : Port → Reply
  | .limb r i => .word (s.readLimb r i)
  | .byte k => .byte (s.b.read k.val)
  | .cmd => .word 0
  | .status => .word s.status.word
  | .mask => .word s.mask

/-- What a write to a port does in phase IDLE (R41, R47). -/
def State.writePort (s : State) : Port → Word → State
  | .limb r i, v => s.writeLimb r i v
  | .byte k, v => s.writeB (s.b.write k.val (v.setWidth 8))
  | .cmd, w => s.issueCommand w
  | .status, _ => s
  | .mask, _ => s

/-- The host's operation is served: the rest stays pending, the reply is what it returned. -/
def State.served (s : State) (rest : List HostOp) (r : Option Reply) : State := { s with host := rest, reply := r }

/-- One step of time passes for a BUSY engine (log 2). -/
def State.elapse (s : State) : State := { s with left := s.left - 1 }

/-- A host access in phase IDLE: everything is allowed (10_state.md R29). -/
def idleAccess (a : Access) (rest : List HostOp) (s : State) : State :=
  match a with
  | .read p => s.served rest (some (s.readPort p))
  | .write p v => (s.writePort p v).served rest none
  | .reset => State.applyReset rest
  | .wait => s.served rest (some (.word s.status.word))
  | .pause => s.served rest none

/-- A host access in phase FAULTED: reads return values, writes and issues are ignored (10_state.md R29, R41). -/
def faultedAccess (a : Access) (rest : List HostOp) (s : State) : State :=
  match a with
  | .read p => s.served rest (some (s.readPort p))
  | .write _ _ => s.served rest none
  | .reset => State.applyReset rest
  | .wait => s.served rest (some (.word s.status.word))
  | .pause => s.served rest none

/-- A host access in phase BUSY: only `STATUS` may be read; a `wait` polls it and stays pending; any other operation but
`Reset` is the hazard of R42. -/
def busyAccess (a : Access) (rest : List HostOp) (s : State) : Host.Outcome State Fault Refusal :=
  match a with
  | .read .status => .next (s.elapse.served rest (some (.word s.status.word)))
  | .read _ => .refused .busyHazard
  | .write _ _ => .refused .busyHazard
  | .reset => .next (State.applyReset rest)
  | .wait => .next (s.elapse.served (.wait :: rest) (some (.word s.status.word)))
  | .pause => .next (s.elapse.served rest none)

/-- The host's turn: its next operation, in the phase the engine is in. A host without a pending operation does nothing. -/
def hostTurn (s : State) : Host.Outcome State Fault Refusal :=
  match s.host with
  | [] => .next (match s.phase with
    | .busy => s.elapse.served [] none
    | .idle => s.served [] none
    | .faulted => s.served [] none)
  | op :: rest =>
    match op.access with
    | .error r => .refused r
    | .ok a =>
      match s.phase with
      | .idle => .next (idleAccess a rest s)
      | .faulted => .next (faultedAccess a rest s)
      | .busy => busyAccess a rest s

end Sys2Proof.Machine
end

