-- ==== Sys2Proof/Machine/Engine.lean ====
section
/-! DEFINITION. One step of the machine (spec 10_state.md R20, R29; 30_encoding.md R72; 70_reset_and_hazards.md R190),
and how a command word is placed so that the next step runs it. -/

namespace Sys2Proof.Machine

/-- The completion step of a BUSY engine: the latched word is run (30_encoding.md R72). A latched word is always legal;
in a state that no run reaches the model stops (log 9). -/
def completion (s : State) : Host.Outcome State Fault Refusal :=
  match decode s.cmd with
  | .ok i => exec i { s with reply := none }
  | .error _ => .fault .illegalLatch

/-- One step: a pending reset comes first, in any phase (70_reset_and_hazards.md R190, log 13); else a BUSY engine with
no time left completes; else the host takes its turn. -/
def advance (s : State) : Host.Outcome State Fault Refusal :=
  match s.host with
  | .reset :: rest => .next (State.applyReset rest)
  | _ => if s.phase = .busy ∧ s.left = 0 then completion s else hostTurn s

/-- The word `w` placed to run next (log 4). A legal word is in flight with no time left, as after its issue, and the
host waits for it; an illegal word is the host's next issue. -/
def placeCommand (s : State) (w : Word) : State :=
  match decode w with
  | .ok _ => { s with
      status := { busy := true, fault := false, fcause := 0 }
      cmd := w
      left := 0
      host := .wait :: s.host }
  | .error _ => { s with
      status := { busy := false, fault := false, fcause := 0 }
      cmd := 0
      left := 0
      host := .issue w :: s.host }

end Sys2Proof.Machine
end

