-- ==== Sys2Proof/Machine/Step.lean ====
section
/-! DEFINITION. The step function and the placing of a command word, by the names the host's files use. -/

namespace Sys2Proof.Machine

/-- One step of the machine: `advance` of Engine.lean. -/
def step (s : State) : Host.Outcome State Fault Refusal := Sys2Proof.Machine.advance s

/-- The state in which the very next step runs the command word `w` (its bits at and above `nbits` are 0):
`placeCommand` of Engine.lean. -/
def State.withFetchWord (s : State) (nbits w : Nat) : State :=
  Sys2Proof.Machine.placeCommand s (BitVec.ofNat 64 (w % 2 ^ nbits))

end Sys2Proof.Machine
end

