-- ==== Sys2Proof/Safety.lean ====
section
/-! DEFINITION. What counts as a safe state, and the spec-level quantities that claims are written with: weak and
canonical elements (spec 00_scope.md R12), residues, the closed form of `RF` (40_addsub_reduce.md R92), the schoolbook
coefficients (42_multiply.md R122), and the invariant of the machine. -/

namespace Sys2Proof

/-! ## Elements -/

/-- `WR(a)` (R12): limbs 1, 2, 3, 5, 6, 7 at most `M56`, limbs 0 and 4 at most `M56 + 256`. -/
abbrev WR (a : Elem) : Prop :=
  ∀ i : LimbIx, a[i.val].toNat ≤ (if i.val = 0 ∨ i.val = 4 then m56 + 256 else m56)

/-- `CANON(a)` (R12): every limb at most `M56` and the value below `p`. -/
abbrev CANON (a : Elem) : Prop := (∀ i : LimbIx, a[i.val].toNat ≤ m56) ∧ a.val < modulus

/-- Weakly reduced with limbs 0 and 4 at most `M56 + k`: the sharper bounds that the command rules state
(40_addsub_reduce.md R93, R94; 42_multiply.md R123). -/
abbrev WRWithin (k : Nat) (a : Elem) : Prop :=
  ∀ i : LimbIx, a[i.val].toNat ≤ (if i.val = 0 ∨ i.val = 4 then m56 + k else m56)

/-- The residue of an element, `val(a) mod p` (R11). -/
def residue (a : Elem) : Nat := a.val % modulus

/-- The closed form of a fully rippled and folded value `V` (R92): the radix-`2^56` digits of `V mod 2^448`, with
`V div 2^448` added to limbs 0 and 4. -/
def foldedDigits (V : Nat) : Elem := Vector.ofFn fun i : LimbIx =>
  BitVec.ofNat 64 (V / 2 ^ (56 * i.val) % 2 ^ 56 + (if i.val = 0 ∨ i.val = 4 then V / 2 ^ 448 else 0))

/-- `Σ ((a[i] + b[i]) mod 2^64)·2^(56·i)`: the value of the raw limb-wise sum (40_addsub_reduce.md R93). -/
def wrappedSum (a b : Elem) : Nat :=
  valNats ((List.range 8).map fun i => ((a.limb i).toNat + (b.limb i).toNat) % 2 ^ 64)

/-- `Σ ((a[i] − b[i] + 2·PL[i]) mod 2^64)·2^(56·i)`: the value of the raw biased difference (40_addsub_reduce.md R94). -/
def wrappedDifference (a b : Elem) : Nat :=
  valNats ((List.range 8).map fun i =>
    ((a.limb i).toNat + (2 ^ 64 - (b.limb i).toNat) + 2 * (pLimbs.limb i).toNat) % 2 ^ 64)

/-- `S[m] = Σ_{i+j=m} a[i]·b[j]` (R122). -/
def schoolbook (a b : Elem) (m : Nat) : Nat :=
  ((List.range 8).map fun i => ((List.range 8).map fun j =>
    if i + j = m then (a.limb i).toNat * (b.limb j).toNat else 0).sum).sum

/-- The reduced coefficient `C[k]` of R122. -/
def reducedCoefficient (a b : Elem) (k : Nat) : Nat :=
  if k < 4 then schoolbook a b k + schoolbook a b (k + 8) + schoolbook a b (k + 12)
  else schoolbook a b k + schoolbook a b (k + 4) + 2 * schoolbook a b (k + 8)

/-- The exponent of ISR, `(p − 3)/4` (43_isr.md R140). -/
def isrExponent : Nat := (modulus - 3) / 4

/-- `(p − 1)/2`: the largest value whose hibit is clear (41_predicates.md R111), and Euler's exponent (43_isr.md R142). -/
def halfModulus : Nat := (modulus - 1) / 2

/-- The number whose little-endian bytes are `B[0]` to `B[n−1]`. -/
def Machine.Memory.littleEndian (b : Machine.Memory) (n : Nat) : Nat := Machine.bytesNat (b.readBytes 0 n)

/-! ## Command words -/

/-- `bits[hi:lo]` of a word (R9). -/
def bitRange (w : Word) (hi lo : Nat) : Nat := w.toNat / 2 ^ lo % 2 ^ (hi - lo + 1)

/-- The conditions of 30_encoding.md R65 on the bits of a word, with the unused fields of R62 and R63: it is no
command. -/
abbrev IllegalByR65 (w : Word) : Prop :=
  (bitRange w 7 0 = 0x00 ∨ 0x0f ≤ bitRange w 7 0) ∨
    bitRange w 31 20 ≠ 0 ∨
    (bitRange w 7 0 ∈ [0x05, 0x06, 0x07, 0x0d] ∧ bitRange w 11 8 ≠ 0) ∨
    (bitRange w 7 0 ∈ [0x03, 0x04, 0x0e] ∧ bitRange w 15 12 ≠ 0) ∨
    (bitRange w 7 0 ∈ [0x03, 0x04, 0x05, 0x06, 0x09, 0x0a, 0x0b, 0x0c, 0x0d, 0x0e] ∧ bitRange w 19 16 ≠ 0) ∨
    (bitRange w 7 0 ∈ [0x01, 0x02, 0x03, 0x04, 0x05, 0x06, 0x07, 0x08, 0x09, 0x0c] ∧ bitRange w 63 32 ≠ 0) ∨
    (bitRange w 7 0 = 0x0a ∧ bitRange w 63 40 ≠ 0) ∨
    (bitRange w 7 0 = 0x0d ∧ bitRange w 63 33 ≠ 0) ∨
    (bitRange w 7 0 = 0x0e ∧ (bitRange w 39 33 ≠ 0 ∨ bitRange w 63 48 ≠ 0)) ∨
    (bitRange w 7 0 = 0x0a ∧ bitRange w 39 32 = 0)

/-- The registers a command reads (30_encoding.md R64). -/
def Instr.sources : Instr → List Reg
  | .add _ ra rb => [ra, rb]
  | .sub _ ra rb => [ra, rb]
  | .wred rd => [rd]
  | .sred rd => [rd]
  | .hibit ra => [ra]
  | .lobit ra => [ra]
  | .eq ra rb => [ra, rb]
  | .mul _ ra rb => [ra, rb]
  | .sqr _ ra => [ra]
  | .sqrn _ ra _ => [ra]
  | .mulw _ ra _ => [ra]
  | .isr _ ra => [ra]
  | .ser ra _ => [ra]
  | .deser _ _ _ => []

/-- The command reads the byte buffer (30_encoding.md R64: DESER only). -/
def Instr.readsBuffer : Instr → Bool
  | .add _ _ _ => false
  | .sub _ _ _ => false
  | .wred _ => false
  | .sred _ => false
  | .hibit _ => false
  | .lobit _ => false
  | .eq _ _ => false
  | .mul _ _ _ => false
  | .sqr _ _ => false
  | .sqrn _ _ _ => false
  | .mulw _ _ _ => false
  | .isr _ _ => false
  | .ser _ _ => false
  | .deser _ _ _ => true

/-- The register a command writes (30_encoding.md R64). -/
def Instr.destination : Instr → Option Reg
  | .add rd _ _ => some rd
  | .sub rd _ _ => some rd
  | .wred rd => some rd
  | .sred rd => some rd
  | .hibit _ => none
  | .lobit _ => none
  | .eq _ _ => none
  | .mul rd _ _ => some rd
  | .sqr rd _ => some rd
  | .sqrn rd _ _ => some rd
  | .mulw rd _ _ => some rd
  | .isr rd _ => some rd
  | .ser _ _ => none
  | .deser rd _ _ => some rd

/-- The command writes `MASK` (10_state.md R23, 30_encoding.md R64). -/
def Instr.writesMask : Instr → Bool
  | .add _ _ _ => false
  | .sub _ _ _ => false
  | .wred _ => false
  | .sred _ => false
  | .hibit _ => true
  | .lobit _ => true
  | .eq _ _ => true
  | .mul _ _ _ => false
  | .sqr _ _ => false
  | .sqrn _ _ _ => false
  | .mulw _ _ _ => false
  | .isr _ _ => true
  | .ser _ _ => false
  | .deser _ _ _ => true

/-- The number of bytes of `B`, from `B[0]` on, that a command stores (44_serdes.md R152). -/
def Instr.storedBytes : Instr → Nat
  | .add _ _ _ => 0
  | .sub _ _ _ => 0
  | .wred _ => 0
  | .sred _ => 0
  | .hibit _ => 0
  | .lobit _ => 0
  | .eq _ _ => 0
  | .mul _ _ _ => 0
  | .sqr _ _ => 0
  | .sqrn _ _ _ => 0
  | .mulw _ _ _ => 0
  | .isr _ _ => 0
  | .ser _ withHibit => if withHibit then 57 else 56
  | .deser _ _ _ => 0

namespace Machine

/-! ## Values in the byte buffer -/

/-- The final byte DESER reads, number 55 or 56, with the bits of `hi_nmask` cleared (44_serdes.md R153). -/
def Memory.finalByte (b : Memory) (withHibit : Bool) (hiNmask : Byte) : Byte :=
  b.read (if withHibit then 56 else 55) &&& ~~~hiNmask

/-- The 448-bit value DESER unpacks: little-endian over bytes 0 to 55, the final byte masked (44_serdes.md R153). -/
def Memory.deserValue (b : Memory) (withHibit : Bool) (hiNmask : Byte) : Nat :=
  if withHibit then b.littleEndian 56
  else b.littleEndian 55 + 2 ^ 440 * (b.finalByte withHibit hiNmask).toNat

/-- The condition under which DESER reports success (44_serdes.md R153): the value is below `p`, no bit at or above
`2^448` is left, and without `with_hibit` the value is at most `(p − 1)/2`. -/
def Memory.deserAccepts (b : Memory) (withHibit : Bool) (hiNmask : Byte) : Bool :=
  decide (b.deserValue withHibit hiNmask < modulus) &&
    (if withHibit then b.finalByte withHibit hiNmask == 0
     else decide (b.deserValue withHibit hiNmask ≤ halfModulus))

/-! ## Safe states -/

/-- `STATUS` as the spec allows it (10_state.md R24, 60_exceptions.md R171): not busy and faulted at once, no cause
without a fault, and a fault has cause 1 or 2 (cause 3 is unreachable, 40_addsub_reduce.md R98). -/
abbrev Status.legal (t : Status) : Prop :=
  (t.busy = true → t.fault = false) ∧ (t.fault = false → t.fcause = 0) ∧
    (t.fault = true → t.fcause = FaultCause.illegalCmd.code ∨ t.fcause = FaultCause.assertSerHibit.code)

/-- `MASK` holds one of its two values (10_state.md R23). -/
abbrev State.maskLegal (s : State) : Prop := s.mask = all0 ∨ s.mask = all1

/-- The command in flight is a legal word while BUSY, and nothing else is held when not BUSY (10_state.md R27). -/
abbrev State.flightLegal (s : State) : Prop :=
  (s.status.busy = true → (decode s.cmd).toOption.isSome = true) ∧
    (s.status.busy = false → s.cmd = 0 ∧ s.left = 0)

/-- The invariant of the machine. -/
structure State.Inv (s : State) : Prop where
  /-- the byte buffer keeps its canonical form -/
  wf : s.b.wf
  /-- the byte buffer lists addresses 0 to 56 only -/
  inBuffer : s.b.inBuffer
  /-- `MASK` is `ALL0` or `ALL1` -/
  mask : s.maskLegal
  /-- `STATUS` reads as the spec allows -/
  status : s.status.legal
  /-- the command in flight is legal -/
  flight : s.flightLegal

/-- Every register is weakly reduced (70_reset_and_hazards.md R194). -/
abbrev State.allWR (s : State) : Prop := ∀ r : Reg, WR (s.reg r)

/-- A host operation that cannot break `State.allWR` (70_reset_and_hazards.md R194): it writes no value of `2^56` or more
to limb 1, 2, 3, 5, 6 or 7 of a register, and none above `M56 + 256` to limb 0 or 4. -/
abbrev HostOp.keepsWR (op : HostOp) : Prop :=
  match op.access with
  | .ok (.write (.limb _ i) v) => v.toNat ≤ (if i.val = 0 ∨ i.val = 4 then m56 + 256 else m56)
  | _ => True

/-- The next state of an outcome, if it has one. -/
def nextOf : Host.Outcome State Fault Refusal → Option State
  | .next s => some s
  | .fault _ => none
  | .refused _ => none

end Machine

end Sys2Proof
end

