-- ==== Sys2Proof/Certificates/Slice0/Obligations.lean ====
section
/-! DEFINITION. The statements about the model that the provers are given. Each docstring names the rules of spec/ that
the statement formalises or rests on, and the log entry where a clause is the model's own choice. -/

section

open Sys2Proof Sys2Proof.Machine

/-! ## Encoding -/

/-- 30_encoding.md R61 to R64: decoding the word of a well-formed command gives the command back, every operand at every
value. -/
def Obligations.DecodeInvertsEncode : Prop :=
  ∀ i : Instr, i.wf = true → decode (encode i) = .ok i

/-- 30_encoding.md R61 to R65: a word that decodes is the word of its command, so no bit of it is dropped, and the command
is well formed. -/
def Obligations.LegalWordIsItsCommandsEncoding : Prop :=
  ∀ (w : Word) (i : Instr), decode w = .ok i → i.wf = true ∧ encode i = w

/-- 30_encoding.md R64: a word decodes to a command of a mnemonic exactly when it matches the row of that mnemonic in the
opcode map (with `n ≠ 0` for SQRN). -/
def Obligations.DecodeFollowsOpcodeMap : Prop :=
  ∀ (w : Word) (m : String), (∃ i, decode w = .ok i ∧ i.mnemonic = m) ↔
    ∃ row ∈ opcodeMap, row.mnemonic = m ∧ row.admits w = true

/-- 30_encoding.md R65: the words that meet one of its conditions are exactly those that are no command; issuing one in
IDLE faults with ILLEGAL_CMD and changes no register, byte or mask; the all-zero and the all-one word are among them. -/
def Obligations.IllegalWordsFault : Prop :=
  (∀ w : Word, IllegalByR65 w ↔ ∀ i, decode w ≠ .ok i) ∧
    (∀ (w : Word) (s : State) (rest : List HostOp), IllegalByR65 w → s.phase = .idle → s.host = .issue w :: rest →
      step s = .next { s with
        status := { busy := false, fault := true, fcause := FaultCause.illegalCmd.code }
        cmd := 0
        left := 0
        host := rest
        reply := none }) ∧
    IllegalByR65 0 ∧ IllegalByR65 (BitVec.allOnes 64)

/-- 30_encoding.md, the encoding examples: five of the words written there decode to the commands beside them. -/
def Obligations.ExampleWordsDecode : Prop :=
  decode 0x0000000000021301 = .ok (.add 3 1 2) ∧
    decode 0x0000000000021007 = .ok (.eq 1 2) ∧
    decode 0x000000df0000120a = .ok (.sqrn 2 1 223) ∧
    decode 0xffffffff0000120b = .ok (.mulw 2 1 0xffffffff) ∧
    decode 0x000080010000010e = .ok (.deser 1 true 0x80)

/-! ## Steps: issue, completion, phases -/

/-- 30_encoding.md R72: issuing a legal word in IDLE makes the engine BUSY and changes nothing else of the machine; the
time it will take (log 2) does not depend on the state (70_reset_and_hazards.md R196). -/
def Obligations.LegalIssueMakesBusy : Prop :=
  ∀ (s : State) (w : Word) (i : Instr) (rest : List HostOp), s.phase = .idle → s.host = .issue w :: rest →
    decode w = .ok i →
    step s = .next { s with
      status := { s.status with busy := true }
      cmd := w
      left := commandDuration w
      host := rest
      reply := none }

/-- 30_encoding.md R72: a BUSY engine with no time left (log 2) runs the command it holds: the step is `exec` of the
decoded command on that state, the reply of the last host operation dropped (log 1). A pending reset comes first (log 13). -/
def Obligations.StepRunsTheCommandInFlight : Prop :=
  ∀ (s : State) (i : Instr), s.phase = .busy → s.left = 0 → s.host.head? ≠ some .reset → decode s.cmd = .ok i →
    step s = exec i { s with reply := none }

/-- The model's own `withFetchWord` (log 4): the step after placing the word of a well-formed command is `exec` of it, and
after placing an illegal word it is the fault entry of 30_encoding.md R65 (60_exceptions.md R172). -/
def Obligations.PlacedWordRunsNext : Prop :=
  (∀ (s : State) (i : Instr), i.wf = true →
    step (s.withFetchWord 64 (encode i).toNat) = exec i { s with
      status := { busy := true, fault := false, fcause := 0 }
      cmd := encode i
      left := 0
      host := .wait :: s.host
      reply := none }) ∧
  (∀ (s : State) (w : Word), IllegalByR65 w →
    step (s.withFetchWord 64 w.toNat) = .next { s with
      status := { busy := false, fault := true, fcause := FaultCause.illegalCmd.code }
      cmd := 0
      left := 0
      reply := none })

/-- 70_reset_and_hazards.md R195, 30_encoding.md R72: a legal command issued in IDLE and waited for completes: after its
duration (log 2) and two more steps, the issue and the completion, the run is at the next state of `exec`, with `BUSY` 0;
one step later the wait has ended: it is no longer pending, its reply is `STATUS` (log 1), and nothing else has changed. -/
def Obligations.WaitedCommandCompletes : Prop :=
  ∀ (s : State) (w : Word) (i : Instr) (rest : List HostOp), s.phase = .idle → decode w = .ok i →
    s.host = .issue w :: .wait :: rest →
    ∃ t : State,
      exec i { s with
        status := { s.status with busy := true }
        cmd := w
        left := 0
        host := .wait :: rest
        reply := none } = .next t ∧ t.status.busy = false ∧
      Host.Core.run Sys2Proof.core (commandDuration w + 2) s = .next t ∧
      Host.Core.run Sys2Proof.core (commandDuration w + 3) s =
        .next { t with host := rest, reply := some (.word t.status.word) }

/-- 70_reset_and_hazards.md R196: the duration of a command depends on its opcode and, for SQRN, on `n` only. -/
def Obligations.DurationDependsOnOpcodeAndCount : Prop :=
  ∀ w v : Word, bitRange w 7 0 = bitRange v 7 0 → (bitRange w 7 0 = 0x0a → bitRange w 39 32 = bitRange v 39 32) →
    commandDuration w = commandDuration v

/-- 10_state.md R29, 20_memory.md R46: while a command runs, a step that is neither its completion nor a reset leaves `F`,
`B`, `MASK`, `STATUS` and the command in flight as they are, and time passes (log 2). -/
def Obligations.BusyStepsChangeNothing : Prop :=
  ∀ s t : State, s.phase = .busy → s.left ≠ 0 → s.host.head? ≠ some .reset → step s = .next t →
    t.f = s.f ∧ t.b = s.b ∧ t.mask = s.mask ∧ t.status = s.status ∧ t.cmd = s.cmd ∧ t.left + 1 = s.left

/-- 20_memory.md R42, 70_reset_and_hazards.md R192: while a command runs (time left, log 2), every access but a read of
`STATUS` has no step; the read of `STATUS` returns it. -/
def Obligations.BusyHazardHasNoStep : Prop :=
  ∀ (s : State) (op : HostOp) (rest : List HostOp), s.phase = .busy → s.left ≠ 0 → s.host = op :: rest →
    (∀ p, op.access = .ok (.read p) → p ≠ .status → step s = .refused .busyHazard) ∧
    (∀ p v, op.access = .ok (.write p v) → step s = .refused .busyHazard) ∧
    (op.access = .ok (.read .status) →
      step s = .next { s with left := s.left - 1, host := rest, reply := some (.word s.status.word) })

/-- 70_reset_and_hazards.md R198: after a fault, however many steps pass and whatever the host does but reset, the registers,
the bytes, `MASK` and `STATUS` stay; and every host operation that has an access (writes and issues among them, ignored)
gets a step. -/
def Obligations.FaultIsFinal : Prop :=
  ∀ (k : Nat) (s : State), s.phase = .faulted → HostOp.reset ∉ s.host →
    (∀ t : State, Host.Core.run Sys2Proof.core k s = .next t →
      t.phase = .faulted ∧ t.f = s.f ∧ t.b = s.b ∧ t.mask = s.mask ∧ t.status = s.status) ∧
    ((∀ op ∈ s.host, ∃ a, op.access = .ok a) → ∃ t : State, Host.Core.run Sys2Proof.core k s = .next t)

/-- 10_state.md R29, 20_memory.md R41: in FAULTED a write or an issue changes nothing of the machine and reports nothing. -/
def Obligations.FaultedIgnoresWrites : Prop :=
  ∀ (s : State) (op : HostOp) (rest : List HostOp) (p : Port) (v : Word), s.phase = .faulted → s.host = op :: rest →
    op.access = .ok (.write p v) → step s = .next { s with host := rest, reply := none }

/-- 70_reset_and_hazards.md R190: a reset, in any phase, leaves the state after reset (the host goes on, log 1; where
the command in flight would complete in that same step the reset comes first, log 13); that state has every limb, byte,
`MASK` and `STATUS` 0 and is IDLE; it is the only exit from FAULTED; and a step without a host operation or a
completion changes nothing of the machine (only time passes, log 2). -/
def Obligations.ResetClearsEverything : Prop :=
  (∀ (s : State) (rest : List HostOp), s.host = .reset :: rest →
    step s = .next { State.reset with host := rest }) ∧
  (∀ (r : Reg) (i : LimbIx), State.reset.readLimb r i = 0) ∧ (∀ k, State.reset.b.read k = 0) ∧
  State.reset.mask = all0 ∧ State.reset.status.word = 0 ∧ State.reset.phase = .idle ∧
  (∀ s t : State, s.phase = .faulted → step s = .next t → t.phase ≠ .faulted → s.host.head? = some .reset) ∧
  (∀ s : State, s.host = [] → (s.phase = .busy → s.left ≠ 0) →
    step s = .next { s with left := if s.phase = .busy then s.left - 1 else s.left, reply := none })

/-- 70_reset_and_hazards.md R191: right after reset every register is the canonical element 0, weakly and strongly reduced. -/
def Obligations.ResetRegistersAreCanonicalZero : Prop :=
  ∀ r : Reg, CANON (State.reset.reg r) ∧ WR (State.reset.reg r) ∧ (State.reset.reg r).val = 0 ∧
    State.reset.reg r = zero

/-- 10_state.md R24: the layout of `STATUS`: `BUSY` is bit 0, `FAULT` bit 1, `FCAUSE` bits 7:4, every other bit reads 0. -/
def Obligations.StatusLayout : Prop :=
  ∀ t : Status, t.word.getLsbD 0 = t.busy ∧ t.word.getLsbD 1 = t.fault ∧ t.word.extractLsb' 4 4 = t.fcause ∧
    t.word.extractLsb' 2 2 = 0 ∧ t.word.extractLsb' 8 56 = 0

/-! ## Host accesses -/

/-- 20_memory.md R41, R46: in IDLE a limb write writes that limb and nothing else of the machine; a limb read, out of
BUSY, returns the limb and changes nothing. -/
def Obligations.HostLimbAccess : Prop :=
  ∀ (s : State) (r : Reg) (i : LimbIx) (rest : List HostOp),
    (∀ v, s.phase = .idle → s.host = .writeLimb r i v :: rest → ∃ t, step s = .next t ∧
      t.readLimb r i = v ∧ (∀ q j, ¬(q = r ∧ j = i) → t.readLimb q j = s.readLimb q j) ∧
      t.b = s.b ∧ t.mask = s.mask ∧ t.status = s.status ∧ t.cmd = s.cmd ∧ t.left = s.left ∧
      t.host = rest ∧ t.reply = none) ∧
    (s.phase ≠ .busy → s.host = .readLimb r i :: rest →
      step s = .next { s with host := rest, reply := some (.word (s.readLimb r i)) })

/-- 20_memory.md R41, R46: in IDLE a byte write writes that byte and nothing else of the machine; a byte read, out of
BUSY, returns the byte and changes nothing. -/
def Obligations.HostByteAccess : Prop :=
  ∀ (s : State) (k : Fin 57) (rest : List HostOp), s.b.wf →
    (∀ v, s.phase = .idle → s.host = .writeByte k v :: rest → ∃ t, step s = .next t ∧
      t.b.read k.val = v ∧ (∀ j, j ≠ k.val → t.b.read j = s.b.read j) ∧
      t.f = s.f ∧ t.mask = s.mask ∧ t.status = s.status ∧ t.cmd = s.cmd ∧ t.left = s.left ∧
      t.host = rest ∧ t.reply = none) ∧
    (s.phase ≠ .busy → s.host = .readByte k :: rest →
      step s = .next { s with host := rest, reply := some (.byte (s.b.read k.val)) })

/-- 20_memory.md R41, R46; 10_state.md R24: a read of `MASK` out of BUSY, and a read of `STATUS` in any phase, return the
register and change nothing (in BUSY, with time left, time passes: log 2). R195: a `wait`, which polls `STATUS`, ends in
IDLE and in FAULTED, `STATUS` its reply; in BUSY, with time left, it stays pending (log 1). -/
def Obligations.HostReadsMaskAndStatus : Prop :=
  ∀ (s : State) (rest : List HostOp),
    (s.phase ≠ .busy → s.host = .readMask :: rest →
      step s = .next { s with host := rest, reply := some (.word s.mask) }) ∧
    (s.phase ≠ .busy → s.host = .readStatus :: rest →
      step s = .next { s with host := rest, reply := some (.word s.status.word) }) ∧
    (s.phase = .busy → s.left ≠ 0 → s.host = .readStatus :: rest →
      step s = .next { s with left := s.left - 1, host := rest, reply := some (.word s.status.word) }) ∧
    (s.phase ≠ .busy → s.host = .wait :: rest →
      step s = .next { s with host := rest, reply := some (.word s.status.word) }) ∧
    (s.phase = .busy → s.left ≠ 0 → s.host = .wait :: rest →
      step s = .next { s with left := s.left - 1, reply := some (.word s.status.word) })

/-- 20_memory.md R44, R45, R47, the default address map: a bus access at the offset of a port, of its width, is the host
operation on that port; `CMD` reads as 0; writes to `STATUS` and `MASK` are ignored. -/
def Obligations.BusReachesThePorts : Prop :=
  ∀ (s : State) (rest : List HostOp), (s.phase = .busy → s.left ≠ 0) →
    (∀ (r : Reg) (i : LimbIx),
      step { s with host := .busRead (0x40 * r.val + 0x08 * i.val) 8 :: rest } =
        step { s with host := .readLimb r i :: rest } ∧
      ∀ v, step { s with host := .busWrite (0x40 * r.val + 0x08 * i.val) 8 v :: rest } =
        step { s with host := .writeLimb r i v :: rest }) ∧
    (∀ k : Fin 57,
      step { s with host := .busRead (0x400 + k.val) 1 :: rest } = step { s with host := .readByte k :: rest } ∧
      ∀ v : Byte, step { s with host := .busWrite (0x400 + k.val) 1 (v.setWidth 64) :: rest } =
        step { s with host := .writeByte k v :: rest }) ∧
    (∀ w, step { s with host := .busWrite 0x440 8 w :: rest } = step { s with host := .issue w :: rest }) ∧
    step { s with host := .busRead 0x448 8 :: rest } = step { s with host := .readStatus :: rest } ∧
    step { s with host := .busRead 0x450 8 :: rest } = step { s with host := .readMask :: rest } ∧
    (s.phase ≠ .busy →
      step { s with host := .busRead 0x440 8 :: rest } = .next { s with host := rest, reply := some (.word 0) } ∧
      ∀ v, step { s with host := .busWrite 0x448 8 v :: rest } = .next { s with host := rest, reply := none } ∧
        step { s with host := .busWrite 0x450 8 v :: rest } = .next { s with host := rest, reply := none })

/-- 20_memory.md R45, R47: an access of a width that its space does not take, a misaligned 64-bit access, and an access to
a reserved offset have no step, read or write. -/
def Obligations.BusRefusesBadAccesses : Prop :=
  ∀ (s : State) (rest : List HostOp) (off width : Nat) (v : Word) (op : HostOp), (s.phase = .busy → s.left ≠ 0) →
    op = .busRead off width ∨ op = .busWrite off width v →
    ((off < 0x400 ∨ (0x440 ≤ off ∧ off < 0x458)) →
      (width ≠ 8 → step { s with host := op :: rest } = .refused .badWidth) ∧
      (width = 8 → off % 8 ≠ 0 → step { s with host := op :: rest } = .refused .misaligned)) ∧
    (0x400 ≤ off ∧ off < 0x439 → width ≠ 1 → step { s with host := op :: rest } = .refused .badWidth) ∧
    ((0x439 ≤ off ∧ off < 0x440) ∨ 0x458 ≤ off → step { s with host := op :: rest } = .refused .reservedAddress)

/-! ## The reduction unit -/

/-- The spec's own inferences in 40_addsub_reduce.md (R92, items 1 to 6, from R91): the carry and the value of `RF`; the bounds of its limbs for coefficients of any
size, for 64-bit limbs (with the bound reached), for weakly reduced limbs, and for 128-bit coefficients in two passes;
its fixed points. -/
def Obligations.RippleAndFold : Prop :=
  (∀ C : List Nat, C.length = 8 →
    (ripple 0 C).2 = valNats C / 2 ^ 448 ∧
    valNats (rippleFold C) + valNats C / 2 ^ 448 * modulus = valNats C ∧
    (∀ i, i < 8 → (rippleFold C).getD i 0 ≤ (if i = 0 ∨ i = 4 then m56 + valNats C / 2 ^ 448 else m56)) ∧
    ((∀ x ∈ C, x < 2 ^ 64) → valNats C / 2 ^ 448 ≤ 256 ∧ WR (Elem.ofNats (rippleFold C))) ∧
    ((∀ x ∈ C, x < 2 ^ 128) → valNats C / 2 ^ 448 < 2 ^ 73 ∧ (∀ x ∈ rippleFold C, x < 2 ^ 73) ∧
      valNats (rippleFold C) < 2 ^ 448 + 2 ^ 298 ∧ valNats (rippleFold C) / 2 ^ 448 ≤ 1 ∧
      WRWithin 1 (rippleFoldTwice C)) ∧
    ((∀ x ∈ C, x ≤ m56) → rippleFold C = C)) ∧
  (∀ a : Elem, WR a → a.val < 2 * 2 ^ 448 ∧ (ripple 0 a.nats).2 ≤ 1) ∧
  rippleFold (List.replicate 8 0xffffffffffffffff) =
    [0x01000000000000ff, 0xfe, 0xff, 0xff, 0x1ff, 0xff, 0xff, 0xff] ∧
  ∃ a : Elem, WR a ∧ rippleFold a.nats ≠ a.nats

/-- The spec's own inference in 40_addsub_reduce.md (R98): for any limbs the value after `RF` is below `2p`, the final borrow is 0 or −1 by its
comparison with `p`, so the assertion cannot fail; the result is the canonical element of the residue, the only one. -/
def Obligations.StrongReductionNeverAsserts : Prop :=
  2 ^ 448 + 2 ^ 233 < 2 * modulus ∧ ∀ a : Elem, (weakReduce a).val < 2 ^ 448 + 2 ^ 233 ∧
    (borrowPass 0 (rippleFold a.nats) pLimbs.nats).2 = (if modulus ≤ (weakReduce a).val then 0 else -1) ∧
    strongReduce a = .ok (limbsOf (a.val % modulus)) ∧
    CANON (limbsOf (a.val % modulus)) ∧ (limbsOf (a.val % modulus)).val = a.val % modulus ∧
    ∀ b : Elem, CANON b → residue b = residue a → b = limbsOf (a.val % modulus)

/-! ## ADD, SUB, WRED, SRED -/

/-- 40_addsub_reduce.md R93: ADD completes on any operands; its result is the folded value of the raw limb-wise sum,
weakly reduced; for weakly reduced operands no limb wraps and the residue is the sum. -/
def Obligations.AddResult : Prop :=
  ∀ (rd ra rb : Reg) (s : State), opField (encode (.add rd ra rb)) = 0x01 ∧
    exec (.add rd ra rb) s = .next (s.writeReg rd (foldedDigits (wrappedSum (s.reg ra) (s.reg rb)))).retire ∧
    WR (foldedDigits (wrappedSum (s.reg ra) (s.reg rb))) ∧
    (WR (s.reg ra) → WR (s.reg rb) →
      wrappedSum (s.reg ra) (s.reg rb) = (s.reg ra).val + (s.reg rb).val ∧
      WRWithin 2 (foldedDigits (wrappedSum (s.reg ra) (s.reg rb))) ∧
      residue (foldedDigits (wrappedSum (s.reg ra) (s.reg rb))) =
        (residue (s.reg ra) + residue (s.reg rb)) % modulus)

/-- 40_addsub_reduce.md R94: SUB completes on any operands; its result is the folded value of the raw limb-wise difference
with the bias `2p`, weakly reduced; for weakly reduced operands no limb wraps and the residue is the difference. -/
def Obligations.SubResult : Prop :=
  ∀ (rd ra rb : Reg) (s : State), opField (encode (.sub rd ra rb)) = 0x02 ∧
    exec (.sub rd ra rb) s =
      .next (s.writeReg rd (foldedDigits (wrappedDifference (s.reg ra) (s.reg rb)))).retire ∧
    WR (foldedDigits (wrappedDifference (s.reg ra) (s.reg rb))) ∧
    (WR (s.reg ra) → WR (s.reg rb) →
      wrappedDifference (s.reg ra) (s.reg rb) + (s.reg rb).val = (s.reg ra).val + 2 * modulus ∧
      WRWithin 3 (foldedDigits (wrappedDifference (s.reg ra) (s.reg rb))) ∧
      (residue (foldedDigits (wrappedDifference (s.reg ra) (s.reg rb))) + residue (s.reg rb)) % modulus =
        residue (s.reg ra))

/-- 40_addsub_reduce.md R95: WRED completes on any limbs; its result is the folded value of the register, weakly reduced,
smaller by a multiple of `p`; the residue is unchanged; a canonical element and `PL` are unchanged. -/
def Obligations.WredResult : Prop :=
  ∀ (rd : Reg) (s : State), opField (encode (.wred rd)) = 0x03 ∧
    exec (.wred rd) s = .next (s.writeReg rd (foldedDigits (s.reg rd).val)).retire ∧
    WR (foldedDigits (s.reg rd).val) ∧ residue (foldedDigits (s.reg rd).val) = residue (s.reg rd) ∧
    (foldedDigits (s.reg rd).val).val + (s.reg rd).val / 2 ^ 448 * modulus = (s.reg rd).val ∧
    (CANON (s.reg rd) ∨ s.reg rd = pLimbs → foldedDigits (s.reg rd).val = s.reg rd)

/-- 40_addsub_reduce.md R97: SRED completes on any limbs and leaves `limbs(val mod p)`, canonical; it is idempotent. -/
def Obligations.SredResult : Prop :=
  ∀ (rd : Reg) (s : State), opField (encode (.sred rd)) = 0x04 ∧
    exec (.sred rd) s = .next (s.writeReg rd (limbsOf ((s.reg rd).val % modulus))).retire ∧
    CANON (limbsOf ((s.reg rd).val % modulus)) ∧
    ∀ t, exec (.sred rd) s = .next t → exec (.sred rd) t = .next t

/-! ## HIBIT, LOBIT, EQ -/

/-- 41_predicates.md R111: HIBIT completes on any operand and writes `MASK` only; the mask is the low bit of the canonical
double; for a weakly reduced operand it is `ALL1` exactly when the residue is above `(p − 1)/2`. -/
def Obligations.HibitResult : Prop :=
  ∀ (ra : Reg) (s : State), opField (encode (.hibit ra)) = 0x05 ∧
    exec (.hibit ra) s = .next (s.writeMask
      (if wrappedSum (s.reg ra) (s.reg ra) % modulus % 2 = 1 then all1 else all0)).retire ∧
    (WR (s.reg ra) → (wrappedSum (s.reg ra) (s.reg ra) % modulus % 2 = 1 ↔ halfModulus < residue (s.reg ra)))

/-- 41_predicates.md R112: LOBIT completes on any limbs and writes `MASK` only: `ALL1` exactly when the canonical value is
odd. -/
def Obligations.LobitResult : Prop :=
  ∀ (ra : Reg) (s : State), opField (encode (.lobit ra)) = 0x06 ∧
    exec (.lobit ra) s = .next (s.writeMask (if residue (s.reg ra) % 2 = 1 then all1 else all0)).retire

/-- 41_predicates.md R113: EQ completes on any operands and writes `MASK` only: `ALL1` exactly when the biased difference
is a multiple of `p`; for weakly reduced operands, exactly when the residues are equal. -/
def Obligations.EqResult : Prop :=
  ∀ (ra rb : Reg) (s : State), opField (encode (.eq ra rb)) = 0x07 ∧
    exec (.eq ra rb) s = .next (s.writeMask
      (if wrappedDifference (s.reg ra) (s.reg rb) % modulus = 0 then all1 else all0)).retire ∧
    (WR (s.reg ra) → WR (s.reg rb) →
      (wrappedDifference (s.reg ra) (s.reg rb) % modulus = 0 ↔ residue (s.reg ra) = residue (s.reg rb)))

/-! ## MUL, SQR, SQRN, MULW -/

/-- 42_multiply.md R122: for weakly reduced operands nothing wraps: the coefficient stage gives the reduced schoolbook
coefficients, each below `2^120`, and their value is the product mod `p`. -/
def Obligations.CoefficientStage : Prop :=
  ∀ a b : Elem, WR a → WR b → mulCoef a b = (List.range 8).map (reducedCoefficient a b) ∧
    (∀ x ∈ mulCoef a b, x < 2 ^ 120) ∧ valNats (mulCoef a b) % modulus = a.val * b.val % modulus

/-- 42_multiply.md R123: MUL completes on any operands; the result is two passes of `RF` over the coefficients, weakly
reduced with limbs 0 and 4 at most `M56 + 1`; for weakly reduced operands the residue is the product. -/
def Obligations.MulResult : Prop :=
  ∀ (rd ra rb : Reg) (s : State), opField (encode (.mul rd ra rb)) = 0x08 ∧
    ∃ d, d = rippleFoldTwice (mulCoef (s.reg ra) (s.reg rb)) ∧
      exec (.mul rd ra rb) s = .next (s.writeReg rd d).retire ∧ WRWithin 1 d ∧
      (WR (s.reg ra) → WR (s.reg rb) → residue d = residue (s.reg ra) * residue (s.reg rb) % modulus)

/-- 42_multiply.md R124: SQR completes on any operand, with the limbs of MUL on equal operands, weakly reduced; for a
weakly reduced operand the residue is the square. -/
def Obligations.SqrResult : Prop :=
  ∀ (rd ra : Reg) (s : State), opField (encode (.sqr rd ra)) = 0x09 ∧
    exec (.sqr rd ra) s = exec (.mul rd ra ra) s ∧
    ∃ d, d = rippleFoldTwice (mulCoef (s.reg ra) (s.reg ra)) ∧
      exec (.sqr rd ra) s = .next (s.writeReg rd d).retire ∧ WR d ∧
      (WR (s.reg ra) → residue d = residue (s.reg ra) ^ 2 % modulus)

/-- 42_multiply.md R125: SQRN with `n` in 1 to 255 completes on any operand; the result is `n` squarings of the operand,
weakly reduced; `n` = 1 is SQR limb for limb; for a weakly reduced operand the residue is the power `2^n`; `n` = 0 is no
legal word. -/
def Obligations.SqrnResult : Prop :=
  ∀ (rd ra : Reg) (n : BitVec 8) (s : State),
    (n ≠ 0 → opField (encode (.sqrn rd ra n)) = 0x0a ∧
      ∃ d, d = (fun y => rippleFoldTwice (mulCoef y y))^[n.toNat] (s.reg ra) ∧
        exec (.sqrn rd ra n) s = .next (s.writeReg rd d).retire ∧ WR d ∧
        (WR (s.reg ra) → residue d = residue (s.reg ra) ^ 2 ^ n.toNat % modulus)) ∧
    exec (.sqrn rd ra 1) s = exec (.sqr rd ra) s ∧ IllegalByR65 (encode (.sqrn rd ra 0))

/-- 42_multiply.md R126: MULW completes on any limbs; the result is two passes of `RF` over `w·a[i]`, within `M56 + 1`; the
residue is `w` times that of the operand, for any limbs. -/
def Obligations.MulwResult : Prop :=
  ∀ (rd ra : Reg) (w : BitVec 32) (s : State), opField (encode (.mulw rd ra w)) = 0x0b ∧
    ∃ d, d = rippleFoldTwice ((s.reg ra).nats.map (w.toNat * ·)) ∧
      exec (.mulw rd ra w) s = .next (s.writeReg rd d).retire ∧ WRWithin 1 d ∧
      residue d = w.toNat * residue (s.reg ra) % modulus

/-! ## ISR -/

/-- 43_isr.md R142: ISR completes on any operand, writes the candidate, within `M56 + 1`, and a mask; for a weakly reduced
operand of residue `v` the candidate has residue `v^((p−3)/4)` and the mask is `ALL1` exactly when `v^((p−1)/2)` is 1. -/
def Obligations.IsrResult : Prop :=
  ∀ (rd ra : Reg) (s : State), opField (encode (.isr rd ra)) = 0x0c ∧
    ∃ d m, exec (.isr rd ra) s = .next ((s.writeReg rd d).writeMask m).retire ∧ WRWithin 1 d ∧
      (m = all0 ∨ m = all1) ∧
      (WR (s.reg ra) → residue d = residue (s.reg ra) ^ isrExponent % modulus ∧
        (m = all1 ↔ residue (s.reg ra) ^ halfModulus % modulus = 1))

/-- 43_isr.md R142 with 00_scope.md R2 (`p` is prime): for a weakly reduced operand, ISR reports success exactly when the
operand is a non-zero square mod `p`, and then the square of the result times the operand is 1. -/
def Obligations.IsrSucceedsOnNonzeroSquares : Prop :=
  ∀ (rd ra : Reg) (s t : State), WR (s.reg ra) → exec (.isr rd ra) s = .next t →
    (t.mask = all1 ↔ residue (s.reg ra) ≠ 0 ∧ ∃ y, y * y % modulus = residue (s.reg ra)) ∧
    (t.mask = all1 → residue (t.reg rd) ^ 2 * residue (s.reg ra) % modulus = 1)

/-- The spec's own inference in 43_isr.md (R143 item 6): of a non-zero element and its negative, ISR succeeds on exactly one. -/
def Obligations.IsrSucceedsOnOneOfTwoNegatives : Prop :=
  ∀ (rd ra rd' rb : Reg) (s t u : State), WR (s.reg ra) → WR (s.reg rb) → residue (s.reg ra) ≠ 0 →
    residue (s.reg ra) + residue (s.reg rb) = modulus →
    exec (.isr rd ra) s = .next t → exec (.isr rd' rb) s = .next u →
    (t.mask = all1 ∧ u.mask = all0) ∨ (t.mask = all0 ∧ u.mask = all1)

/-- 43_isr.md R143 items 1, 2, 4, 5: zero has no inverse square root and gives 0; a non-residue gives a value whose square
times the operand is −1; −1 gives −1 and fails; 4 gives 1/2 and succeeds. -/
def Obligations.IsrCornerCases : Prop :=
  ∀ (rd ra : Reg) (s t : State), WR (s.reg ra) → exec (.isr rd ra) s = .next t →
    (residue (s.reg ra) = 0 → t.mask = all0 ∧ residue (t.reg rd) = 0) ∧
    (residue (s.reg ra) ≠ 0 → t.mask = all0 →
      residue (t.reg rd) ^ 2 * residue (s.reg ra) % modulus = modulus - 1) ∧
    (residue (s.reg ra) = modulus - 1 → t.mask = all0 ∧ residue (t.reg rd) = modulus - 1) ∧
    (residue (s.reg ra) = 4 → t.mask = all1 ∧ residue (t.reg rd) = (modulus + 1) / 2)

/-! ## SER and DESER -/

/-- 44_serdes.md R151, R152: SER completes with `with_hibit` = 1, and with `with_hibit` = 0 when the residue is at most
`(p − 1)/2`; bytes 0 to 55 are the little-endian bytes of the residue; byte 56 is 0 with `with_hibit` = 1 and unchanged
otherwise. -/
def Obligations.SerResult : Prop :=
  ∀ (ra : Reg) (h : Bool) (s : State), s.b.wf → (h = false → residue (s.reg ra) ≤ halfModulus) →
    opField (encode (.ser ra h)) = 0x0d ∧
    ∃ b', exec (.ser ra h) s = .next (s.writeB b').retire ∧ b'.wf ∧
      (∀ k, k < 56 → b'.read k = BitVec.ofNat 8 (residue (s.reg ra) / 2 ^ (8 * k) % 256)) ∧
      b'.read 56 = (if h then 0 else s.b.read 56) ∧ (∀ k, 56 < k → b'.read k = s.b.read k)

/-- 44_serdes.md R152, 60_exceptions.md R171, R172: SER with `with_hibit` = 0 on a residue above `(p − 1)/2` takes the
fault ASSERT_SER_HIBIT: `STATUS` records cause 2, `F`, `B` and `MASK` are unchanged. -/
def Obligations.SerFaultsOnHibit : Prop :=
  ∀ (ra : Reg) (s : State), halfModulus < residue (s.reg ra) →
    exec (.ser ra false) s = .next { s with
      status := { busy := false, fault := true, fcause := 2 }
      cmd := 0
      left := 0 }

/-- 44_serdes.md R153: DESER completes on any bytes: the register is the limbs of the 448-bit value unpacked, the final
byte masked by `hi_nmask`, on success and on failure; the mask is `ALL1` exactly when the value is below `p`, no bit at or
above `2^448` is left, and (without `with_hibit`) the value is at most `(p − 1)/2`. -/
def Obligations.DeserResult : Prop :=
  ∀ (rd : Reg) (h : Bool) (nm : Byte) (s : State), opField (encode (.deser rd h nm)) = 0x0e ∧
    exec (.deser rd h nm) s = .next ((s.writeReg rd (limbsOf (s.b.deserValue h nm))).writeMask
      (if s.b.deserAccepts h nm then all1 else all0)).retire ∧
    s.b.deserValue h nm < 2 ^ 448 ∧ WR (limbsOf (s.b.deserValue h nm)) ∧
    (s.b.deserAccepts h nm = true → CANON (limbsOf (s.b.deserValue h nm)))

/-- The spec's own inferences in 44_serdes.md, section 4 (R154): the four round-trip laws, with the readings of log 12. -/
def Obligations.SerializationRoundTrips : Prop :=
  ∀ (ra rd : Reg) (s : State), s.b.wf →
    (∃ t u, exec (.ser ra true) s = .next t ∧ exec (.deser rd true 0) t = .next u ∧
      u.reg rd = limbsOf ((s.reg ra).val % modulus) ∧ u.mask = all1) ∧
    (residue (s.reg ra) ≤ halfModulus →
      ∃ t u, exec (.ser ra false) s = .next t ∧ exec (.deser rd false 0) t = .next u ∧
        u.reg rd = limbsOf ((s.reg ra).val % modulus) ∧ u.mask = all1) ∧
    (halfModulus < residue (s.reg ra) → exec (.ser ra false) s = .next (s.enterFault .assertSerHibit)) ∧
    (∀ (h : Bool) (nm : Byte) (t : State), exec (.deser rd h nm) s = .next t → t.mask = all1 →
      (∃ u, exec (.ser rd h) t = .next u ∧ u.status = t.status ∧
        (∀ k, k < 56 → u.b.read k = (if h = false ∧ k = 55 then s.b.read k &&& ~~~nm else s.b.read k)) ∧
        (h = true → u.b.read 56 = 0)) ∧
      exec (.sred rd) t = .next t)

/-- 70_reset_and_hazards.md R199: for a weakly reduced element, HIBIT tells whether SER with `with_hibit` = 0 would fault. -/
def Obligations.HibitPredictsSerFault : Prop :=
  ∀ (ra : Reg) (s t u : State), WR (s.reg ra) → s.status.fault = false → exec (.hibit ra) s = .next t →
    exec (.ser ra false) s = .next u → (t.mask = all1 ↔ u.status.fault = true)

/-! ## Completion and frames -/

/-- 30_encoding.md R72, 60_exceptions.md R171: every well-formed command completes on every state, SER with `with_hibit` = 0
on residues up to `(p − 1)/2`: `BUSY` falls, no fault is recorded, the hidden state is cleared (10_state.md R27). -/
def Obligations.EveryCommandCompletes : Prop :=
  ∀ (i : Instr) (s : State), i.wf = true → (∀ ra, i = .ser ra false → residue (s.reg ra) ≤ halfModulus) →
    ∃ t, exec i s = .next t ∧ t.status = { s.status with busy := false } ∧ t.cmd = 0 ∧ t.left = 0

/-- 60_exceptions.md R171, R172, R173: a command faults only where it is SER with `with_hibit` = 0 on a residue above
`(p − 1)/2`; the cause is 2 and `F`, `B` and `MASK` are unchanged. Cause 3 never arises. -/
def Obligations.OnlySerFaults : Prop :=
  ∀ (i : Instr) (s t : State), i.wf = true → s.status.fault = false → exec i s = .next t → t.status.fault = true →
    (∃ ra, i = .ser ra false ∧ halfModulus < residue (s.reg ra)) ∧
    t.status.fcause = 2 ∧ t.status.busy = false ∧ t.f = s.f ∧ t.b = s.b ∧ t.mask = s.mask

/-- The frame of the commands that write a register only (30_encoding.md R64; 40_addsub_reduce.md R93 to R97; 42_multiply.md
R123 to R126): ADD, SUB, WRED, SRED, MUL, SQR, SQRN, MULW change no register but `rd`, no byte, not `MASK`, and of `STATUS`
only `BUSY`; of the model's own fields (log 1, 2) only `left`, beside the command word in flight. -/
def Obligations.RegisterCommandFrame : Prop :=
  ∀ (i : Instr) (rd : Reg) (s t : State), i.wf = true → i.destination = some rd → i.writesMask = false →
    exec i s = .next t →
    (∀ q, q ≠ rd → t.reg q = s.reg q) ∧ (∀ k, t.b.read k = s.b.read k) ∧ t.b = s.b ∧ t.mask = s.mask ∧
    t.status.fault = s.status.fault ∧ t.status.fcause = s.status.fcause ∧ t.status.busy = false ∧
    t.cmd = 0 ∧ t.left = 0 ∧ t.host = s.host ∧ t.reply = s.reply

/-- The frame of HIBIT, LOBIT, EQ (41_predicates.md R110): no register, no byte; of `STATUS` only `BUSY`. -/
def Obligations.PredicateFrame : Prop :=
  ∀ (i : Instr) (s t : State), i.destination = none → i.writesMask = true → exec i s = .next t →
    (∀ q, t.reg q = s.reg q) ∧ (∀ k, t.b.read k = s.b.read k) ∧ t.b = s.b ∧
    t.status.fault = s.status.fault ∧ t.status.fcause = s.status.fcause ∧ t.status.busy = false ∧
    t.cmd = 0 ∧ t.left = 0 ∧ t.host = s.host ∧ t.reply = s.reply

/-- The frame of ISR and DESER (43_isr.md R142, 44_serdes.md R153): no register but `rd`, no byte; of `STATUS` only `BUSY`. -/
def Obligations.IsrAndDeserFrame : Prop :=
  ∀ (i : Instr) (rd : Reg) (s t : State), i.destination = some rd → i.writesMask = true → exec i s = .next t →
    (∀ q, q ≠ rd → t.reg q = s.reg q) ∧ (∀ k, t.b.read k = s.b.read k) ∧ t.b = s.b ∧
    t.status.fault = s.status.fault ∧ t.status.fcause = s.status.fcause ∧ t.status.busy = false ∧
    t.cmd = 0 ∧ t.left = 0 ∧ t.host = s.host ∧ t.reply = s.reply

/-- The frame of SER (44_serdes.md R152), both forms, completing or faulting: no register, not `MASK`, no byte from the
56th (57th with `with_hibit` = 1) on; when it completes, of `STATUS` only `BUSY`. -/
def Obligations.SerFrame : Prop :=
  ∀ (ra : Reg) (h : Bool) (s t : State), s.b.wf → exec (.ser ra h) s = .next t →
    (∀ q, t.reg q = s.reg q) ∧ t.mask = s.mask ∧
    (∀ k, (Instr.ser ra h).storedBytes ≤ k → t.b.read k = s.b.read k) ∧
    (h = true ∨ residue (s.reg ra) ≤ halfModulus →
      t.status.fault = s.status.fault ∧ t.status.fcause = s.status.fcause) ∧
    t.status.busy = false ∧ t.cmd = 0 ∧ t.left = 0 ∧ t.host = s.host ∧ t.reply = s.reply

/-! ## Rules of the whole machine -/

/-- 10_state.md R23, 70_reset_and_hazards.md R193: the nine commands that do not produce a mask leave `MASK` as it is; the
other five leave `ALL0` or `ALL1`. -/
def Obligations.MaskLifetime : Prop :=
  ∀ (i : Instr) (s t : State), exec i s = .next t →
    (i.writesMask = false → t.mask = s.mask) ∧ (i.writesMask = true → t.mask = all0 ∨ t.mask = all1)

/-- 30_encoding.md R70, R71; 10_state.md R23: what a command does depends on the registers its format reads and, for
DESER, on `B`, and on nothing else: two states that agree there get the same result, mask, stored bytes and status. -/
def Obligations.ResultsDependOnSourcesOnly : Prop :=
  ∀ (i : Instr) (s s' : State), (∀ r ∈ i.sources, s.reg r = s'.reg r) → (i.readsBuffer = true → s.b = s'.b) →
    s.b.wf → s'.b.wf → s.status = s'.status →
    ∃ t t', exec i s = .next t ∧ exec i s' = .next t' ∧ t.status = t'.status ∧
      (∀ rd, i.wf = true → i.destination = some rd → t.reg rd = t'.reg rd) ∧
      (i.writesMask = true → t.mask = t'.mask) ∧
      (t.status.fault = false → ∀ k, k < i.storedBytes → t.b.read k = t'.b.read k)

/-- The invariant holds right after reset (10_state.md R28). -/
def Obligations.ResetMeetsInvariant : Prop := State.reset.Inv

/-- 10_state.md R22, R23, R24, R29; 40_addsub_reduce.md R98: every step keeps the invariant: the buffer's canonical form
and its 57 addresses, `MASK` at one of its two values, `BUSY` and `FAULT` never both 1, `FCAUSE` 0 without a fault and 1 or
2 with one, a legal command in flight while BUSY. -/
def Obligations.StepKeepsInvariant : Prop :=
  ∀ s t : State, s.Inv → step s = .next t → t.Inv

/-- 70_reset_and_hazards.md R194, 00_scope.md R15: every step keeps all sixteen registers weakly reduced, unless the host
writes, in IDLE, a value of `2^56` or more to limb 1, 2, 3, 5, 6 or 7 or above `M56 + 256` to limb 0 or 4 (in FAULTED a
write is ignored, 20_memory.md R41). -/
def Obligations.StepKeepsWeakReduction : Prop :=
  ∀ s t : State, s.allWR → (s.phase = .idle → ∀ op, s.host.head? = some op → op.keepsWR) → step s = .next t → t.allWR

end
end

