-- ==== Sys2Proof/Laws/Decode.lean ====
section
/-! SUPPORT. The fields of an assembled word, and a word from its fields (spec 30_encoding.md R61). -/

set_option Elab.async false

namespace Sys2Proof

@[simp] theorem opField_assemble (op : BitVec 8) (rd ra rb : Reg) (imm : BitVec 32) :
    opField (assemble op rd ra rb imm) = op := by
  apply BitVec.eq_of_getLsbD_eq
  intro i hi
  simp only [opField, assemble, BitVec.getLsbD_extractLsb', BitVec.getLsbD_append, Nat.zero_add]
  simp [hi]

@[simp] theorem rdField_assemble (op : BitVec 8) (rd ra rb : Reg) (imm : BitVec 32) :
    rdField (assemble op rd ra rb imm) = rd := by
  have h : (assemble op rd ra rb imm).extractLsb' 8 4 = BitVec.ofFin rd := by
    apply BitVec.eq_of_getLsbD_eq
    intro i hi
    simp only [assemble, BitVec.getLsbD_extractLsb', BitVec.getLsbD_append]
    simp [hi]
  rw [rdField, h]

@[simp] theorem raField_assemble (op : BitVec 8) (rd ra rb : Reg) (imm : BitVec 32) :
    raField (assemble op rd ra rb imm) = ra := by
  have h : (assemble op rd ra rb imm).extractLsb' 12 4 = BitVec.ofFin ra := by
    apply BitVec.eq_of_getLsbD_eq
    intro i hi
    simp only [assemble, BitVec.getLsbD_extractLsb', BitVec.getLsbD_append]
    simp [hi, show ¬ 12 + i < 8 by omega, show 12 + i - 8 = 4 + i by omega]
  rw [raField, h]

@[simp] theorem rbField_assemble (op : BitVec 8) (rd ra rb : Reg) (imm : BitVec 32) :
    rbField (assemble op rd ra rb imm) = rb := by
  have h : (assemble op rd ra rb imm).extractLsb' 16 4 = BitVec.ofFin rb := by
    apply BitVec.eq_of_getLsbD_eq
    intro i hi
    simp only [assemble, BitVec.getLsbD_extractLsb', BitVec.getLsbD_append]
    simp [hi, show ¬ 16 + i < 8 by omega, show 16 + i - 8 = 8 + i by omega, show ¬ 8 + i < 4 by omega,
      show 8 + i - 4 = 4 + i by omega]
  rw [rbField, h]

@[simp] theorem rsvField_assemble (op : BitVec 8) (rd ra rb : Reg) (imm : BitVec 32) :
    rsvField (assemble op rd ra rb imm) = 0 := by
  apply BitVec.eq_of_getLsbD_eq
  intro i hi
  simp only [rsvField, assemble, BitVec.getLsbD_extractLsb', BitVec.getLsbD_append]
  simp [hi, show ¬ 20 + i < 8 by omega, show 20 + i - 8 = 12 + i by omega, show ¬ 12 + i < 4 by omega,
    show 12 + i - 4 = 8 + i by omega, show ¬ 8 + i < 4 by omega, show 8 + i - 4 = 4 + i by omega]

@[simp] theorem immField_assemble (op : BitVec 8) (rd ra rb : Reg) (imm : BitVec 32) :
    immField (assemble op rd ra rb imm) = imm := by
  apply BitVec.eq_of_getLsbD_eq
  intro i hi
  simp only [immField, assemble, BitVec.getLsbD_extractLsb', BitVec.getLsbD_append]
  simp [hi, show ¬ 32 + i < 8 by omega, show 32 + i - 8 = 24 + i by omega, show ¬ 24 + i < 4 by omega,
    show 24 + i - 4 = 20 + i by omega, show ¬ 20 + i < 4 by omega, show 20 + i - 4 = 16 + i by omega,
    show ¬ 16 + i < 4 by omega, show 16 + i - 4 = 12 + i by omega, show ¬ 12 + i < 12 by omega]

/-- A word whose reserved bits are 0 is made of its fields. -/
theorem assemble_fields (w : Word) (h : rsvField w = 0) :
    assemble (opField w) (rdField w) (raField w) (rbField w) (immField w) = w := by
  apply BitVec.eq_of_getLsbD_eq
  intro i hi
  have hr : ∀ j, j < 12 → w.getLsbD (20 + j) = false := by
    intro j hj
    have := congrArg (fun v : BitVec 12 => v.getLsbD j) h
    simpa [rsvField, hj] using this
  have h4 : ∀ v : BitVec 4, (BitVec.ofFin v.toFin : BitVec 4) = v := fun _ => rfl
  simp only [assemble, BitVec.getLsbD_append, opField, rdField, raField, rbField, immField, h4, BitVec.getLsbD_extractLsb']
  by_cases h0 : i < 8
  · simp [h0]
  by_cases h1 : i < 12
  · simp [h0, show i - 8 < 4 by omega, show 8 + (i - 8) = i by omega]
  by_cases h2 : i < 16
  · simp [h0, show ¬ i - 8 < 4 by omega, show i - 8 - 4 < 4 by omega, show 12 + (i - 8 - 4) = i by omega]
  by_cases h3 : i < 20
  · simp [h0, show ¬ i - 8 < 4 by omega, show ¬ i - 8 - 4 < 4 by omega, show i - 8 - 4 - 4 < 4 by omega,
      show 16 + (i - 8 - 4 - 4) = i by omega]
  by_cases h5 : i < 32
  · have := hr (i - 20) (by omega)
    rw [show 20 + (i - 20) = i by omega] at this
    simp [h0, show ¬ i - 8 < 4 by omega, show ¬ i - 8 - 4 < 4 by omega, show ¬ i - 8 - 4 - 4 < 4 by omega,
      show i - 8 - 4 - 4 - 4 < 12 by omega, this]
  · simp [h0, show ¬ i - 8 < 4 by omega, show ¬ i - 8 - 4 < 4 by omega, show ¬ i - 8 - 4 - 4 < 4 by omega,
      show ¬ i - 8 - 4 - 4 - 4 < 12 by omega, show i - 8 - 4 - 4 - 4 - 12 < 32 by omega,
      show 32 + (i - 8 - 4 - 4 - 4 - 12) = i by omega]

/-- When `checked` accepts. -/
theorem checked_eq_ok {rsv regs imm : Bool} {i j : Instr} :
    checked rsv regs imm i = .ok j ↔ rsv = true ∧ regs = true ∧ imm = true ∧ i.wf = true ∧ j = i := by
  unfold checked
  cases rsv <;> cases regs <;> cases imm <;> cases h : i.wf <;> simp [eq_comm]

end Sys2Proof
end

