-- ==== Sys2Proof/Laws/Elem.lean ====
section
/-! SUPPORT. Elements, their limbs as naturals, and values in radix `2^56`. -/

set_option Elab.async false

namespace Sys2Proof

set_option exponentiation.threshold 1000

/-! ## Limbs -/

@[simp] theorem Elem.length_nats (a : Elem) : a.nats.length = 8 := by simp [Elem.nats]

theorem Elem.nats_lt (a : Elem) : ∀ x ∈ a.nats, x < 2 ^ 64 := by
  intro x hx
  obtain ⟨y, _, rfl⟩ := List.mem_map.1 hx
  exact y.isLt

@[simp] theorem Elem.getElem_nats (a : Elem) (i : Nat) (h : i < a.nats.length) :
    a.nats[i] = (a[i]'(by simpa using h)).toNat := by
  simp [Elem.nats]

theorem Elem.nats_getD (a : Elem) (i : LimbIx) : a.nats.getD i.val 0 = a[i.val].toNat := by
  rw [List.getD_eq_getElem _ _ (by simp), Elem.getElem_nats]

theorem Elem.limb_toNat (a : Elem) (i : LimbIx) : (a.limb i.val) = a[i.val] := by
  rw [Elem.limb, List.getD_eq_getElem _ _ (by simp), Vector.getElem_toList]

theorem Elem.ext_nats {a b : Elem} (h : a.nats = b.nats) : a = b := by
  apply Vector.ext
  intro i hi
  apply BitVec.eq_of_toNat_eq
  rw [← Elem.getElem_nats a i (by simpa using hi), ← Elem.getElem_nats b i (by simpa using hi)]
  simp only [h]

@[simp] theorem Elem.getElem_ofNats (l : List Nat) (i : Nat) (h : i < 8) :
    (Elem.ofNats l)[i] = BitVec.ofNat 64 (l.getD i 0) := by
  simp [Elem.ofNats]

theorem Elem.nats_ofNats {l : List Nat} (hl : l.length = 8) (h : ∀ x ∈ l, x < 2 ^ 64) : (Elem.ofNats l).nats = l := by
  apply List.ext_getElem (by simp [hl])
  intro i h1 h2
  rw [Elem.getElem_nats, Elem.getElem_ofNats, List.getD_eq_getElem _ _ h2, BitVec.toNat_ofNat]
  exact Nat.mod_eq_of_lt (h _ (List.getElem_mem h2))

@[simp] theorem Elem.ofNats_nats (a : Elem) : Elem.ofNats a.nats = a :=
  Elem.ext_nats (Elem.nats_ofNats (by simp) a.nats_lt)

theorem Elem.val_ofNats {l : List Nat} (hl : l.length = 8) (h : ∀ x ∈ l, x < 2 ^ 64) :
    (Elem.ofNats l).val = valNats l := by
  rw [Elem.val, Elem.nats_ofNats hl h]

/-- A list of eight numbers, by name. -/
theorem eq_eight {α : Type} {l : List α} (h : l.length = 8) :
    ∃ x0 x1 x2 x3 x4 x5 x6 x7, l = [x0, x1, x2, x3, x4, x5, x6, x7] := by
  rcases l with _ | ⟨x0, _ | ⟨x1, _ | ⟨x2, _ | ⟨x3, _ | ⟨x4, _ | ⟨x5, _ | ⟨x6, _ | ⟨x7, _ | ⟨x8, l⟩⟩⟩⟩⟩⟩⟩⟩⟩ <;>
    simp_all

/-! ## Values -/

@[simp] theorem valNats_nil : valNats [] = 0 := rfl

@[simp] theorem valNats_cons (x : Nat) (l : List Nat) : valNats (x :: l) = x + 2 ^ 56 * valNats l := rfl

theorem valNats_lt {l : List Nat} (h : ∀ x ∈ l, x < 2 ^ 56) : valNats l < 2 ^ (56 * l.length) := by
  induction l with
  | nil => simp
  | cons x l ih =>
    simp only [List.mem_cons, forall_eq_or_imp] at h
    have := ih h.2
    rw [valNats_cons, List.length_cons, Nat.mul_add, Nat.mul_one, Nat.pow_add]
    have hx := h.1
    omega

/-- The digits of a value whose limbs are all below the radix. -/
theorem getElem_of_valNats {l : List Nat} (h : ∀ x ∈ l, x < 2 ^ 56) (i : Nat) (hi : i < l.length) :
    l[i] = valNats l / 2 ^ (56 * i) % 2 ^ 56 := by
  induction l generalizing i with
  | nil => simp at hi
  | cons x l ih =>
    simp only [List.mem_cons, forall_eq_or_imp] at h
    have hx := h.1
    cases i with
    | zero => simp only [List.getElem_cons_zero, valNats_cons, Nat.mul_zero, Nat.pow_zero, Nat.div_one]; omega
    | succ i =>
      rw [List.getElem_cons_succ, ih h.2 i (by simpa using hi), valNats_cons, Nat.mul_add, Nat.mul_one,
        Nat.add_comm (56 * i), Nat.pow_add, ← Nat.div_div_eq_div_mul]
      congr 2
      omega

/-- `limbs(v)` as a list. -/
def digitNats (v : Nat) : List Nat := (List.range 8).map fun i => v / 2 ^ (56 * i) % 2 ^ 56

@[simp] theorem length_digitNats (v : Nat) : (digitNats v).length = 8 := by simp [digitNats]

theorem digitNats_lt (v : Nat) : ∀ x ∈ digitNats v, x < 2 ^ 56 := by
  intro x hx
  obtain ⟨i, _, rfl⟩ := List.mem_map.1 hx
  exact Nat.mod_lt _ (by norm_num)

theorem ofNats_digitNats (v : Nat) : Elem.ofNats (digitNats v) = limbsOf v := by
  apply Vector.ext
  intro i hi
  simp [limbsOf, digitNats, hi]

theorem valNats_digitNats (v : Nat) : valNats (digitNats v) = v % 2 ^ 448 := by
  simp only [digitNats, List.range, List.range.loop, List.map_cons, List.map_nil, valNats_cons, valNats_nil]
  norm_num only
  omega

/-- A list of eight digits is determined by its value. -/
theorem eq_digitNats {l : List Nat} (hl : l.length = 8) (h : ∀ x ∈ l, x < 2 ^ 56) : l = digitNats (valNats l) := by
  apply List.ext_getElem (by simp [hl])
  intro i h1 h2
  rw [getElem_of_valNats h i h1]
  simp [digitNats]

theorem nats_limbsOf (v : Nat) : (limbsOf v).nats = digitNats v := by
  rw [← ofNats_digitNats]
  exact Elem.nats_ofNats (by simp) fun x hx => lt_trans (digitNats_lt v x hx) (by norm_num)

theorem val_limbsOf {v : Nat} (h : v < 2 ^ 448) : (limbsOf v).val = v := by
  rw [Elem.val, nats_limbsOf, valNats_digitNats, Nat.mod_eq_of_lt h]

/-- `p` as a numeral, for linear arithmetic. -/
theorem modulus_eq : modulus =
    726838724295606890549323807888004534353641360687318060281490199180612328166730772686396383698676545930088884461843637361053498018365439 := by
  decide +kernel

theorem modulus_lt : modulus < 2 ^ 448 := by decide +kernel

theorem modulus_add : modulus + 2 ^ 224 + 1 = 2 ^ 448 := by decide +kernel

theorem modulus_pos : 0 < modulus := by decide +kernel

theorem canon_limbsOf {v : Nat} (h : v < modulus) : CANON (limbsOf v) := by
  have hv : v < 2 ^ 448 := lt_trans h modulus_lt
  refine ⟨fun i => ?_, by rwa [val_limbsOf hv]⟩
  rw [← Elem.getElem_nats _ _ (by simp)]
  have := digitNats_lt v _ (List.getElem_mem (show i.val < (digitNats v).length by simp))
  simp only [nats_limbsOf, m56]
  omega

theorem residue_limbsOf_mod (v : Nat) : residue (limbsOf (v % modulus)) = v % modulus := by
  rw [residue, val_limbsOf (lt_trans (Nat.mod_lt _ modulus_pos) modulus_lt), Nat.mod_mod]

/-- The value of any element: its limbs have 64 bits. -/
theorem Elem.val_lt (a : Elem) : a.val < 257 * 2 ^ 448 := by
  obtain ⟨x0, x1, x2, x3, x4, x5, x6, x7, h⟩ := eq_eight a.length_nats
  have hl := a.nats_lt
  simp only [h, List.mem_cons, List.not_mem_nil, or_false, forall_eq_or_imp, forall_eq] at hl
  simp only [Elem.val, h, valNats_cons, valNats_nil]
  norm_num only at hl ⊢
  omega

theorem residue_lt (a : Elem) : residue a < modulus := Nat.mod_lt _ modulus_pos

/-- `CANON` implies `WR` (R12). -/
theorem WR_of_CANON {a : Elem} (h : CANON a) : WR a := by
  intro i
  split
  · exact le_trans (h.1 i) (Nat.le_add_right _ _)
  · exact h.1 i

end Sys2Proof
end

