-- ==== Sys2Proof/Laws/Reduce.lean ====
section
/-! SUPPORT. What the reduction unit does: `RF` in closed form, and `SR` as reduction mod `p`. -/

set_option Elab.async false

namespace Sys2Proof.Machine

set_option exponentiation.threshold 1000

/-! ## The carry chain -/

@[simp] theorem length_ripple (c : Nat) (C : List Nat) : (ripple c C).1.length = C.length := by
  induction C generalizing c with
  | nil => rfl
  | cons x C ih => simp [ripple, ih]

theorem ripple_lt (c : Nat) (C : List Nat) : ∀ x ∈ (ripple c C).1, x < 2 ^ 56 := by
  induction C generalizing c with
  | nil => simp [ripple]
  | cons x C ih =>
    simp only [ripple, List.mem_cons, forall_eq_or_imp]
    exact ⟨Nat.mod_lt _ (by norm_num), ih _⟩

/-- Nothing is lost: digits and the last carry make up the value. -/
theorem valNats_ripple (c : Nat) (C : List Nat) :
    valNats (ripple c C).1 + 2 ^ (56 * C.length) * (ripple c C).2 = valNats C + c := by
  induction C generalizing c with
  | nil => simp [ripple]
  | cons x C ih =>
    have h := ih ((x + c) / 2 ^ 56)
    simp only [ripple, valNats_cons, List.length_cons]
    rw [show 56 * (C.length + 1) = 56 + 56 * C.length by ring, Nat.pow_add, Nat.mul_assoc, Nat.add_assoc,
      ← Nat.mul_add, h]
    omega

/-- The carry chain over eight coefficients gives the digits of the value and its excess over 448 bits. -/
theorem ripple_eight {C : List Nat} (hC : C.length = 8) :
    ripple 0 C = (digitNats (valNats C), valNats C / 2 ^ 448) := by
  have hv := valNats_ripple 0 C
  have hl := valNats_lt (ripple_lt 0 C)
  rw [length_ripple, hC] at hl
  rw [hC, Nat.add_zero] at hv
  have hd := eq_digitNats (l := (ripple 0 C).1) (by simp [hC]) (ripple_lt 0 C)
  norm_num only at hv hl
  have h1 : (ripple 0 C).2 = valNats C / 2 ^ 448 := by norm_num only; omega
  have h2 : valNats (ripple 0 C).1 = valNats C % 2 ^ 448 := by norm_num only; omega
  refine Prod.ext ?_ h1
  simp only
  rw [hd, h2]
  simp only [digitNats, List.map_inj_left, List.mem_range]
  intro i hi
  interval_cases i <;> norm_num only <;> omega

/-! ## `RF` -/

/-- The closed form of `RF` as a list: digits of the value, the excess added to limbs 0 and 4. -/
def foldedNats (V : Nat) : List Nat :=
  (List.range 8).map fun i => V / 2 ^ (56 * i) % 2 ^ 56 + (if i = 0 ∨ i = 4 then V / 2 ^ 448 else 0)

@[simp] theorem length_foldedNats (V : Nat) : (foldedNats V).length = 8 := by simp [foldedNats]

/-- `RF` of eight coefficients of any size, in closed form (R91). -/
theorem rippleFold_eq {C : List Nat} (hC : C.length = 8) : rippleFold C = foldedNats (valNats C) := by
  rw [rippleFold, ripple_eight hC]
  simp [foldCarry, digitNats, foldedNats, List.range, List.range.loop, List.modify]

@[simp] theorem ofNats_foldedNats (V : Nat) : Elem.ofNats (foldedNats V) = foldedDigits V := by
  apply Vector.ext
  intro i hi
  simp [foldedDigits, foldedNats, hi]

/-- `val(RF(C)) = V − c·p` with `c = V div 2^448` (R92 item 1). -/
theorem valNats_foldedNats (V : Nat) : valNats (foldedNats V) + V / 2 ^ 448 * modulus = V := by
  simp only [foldedNats, List.range, List.range.loop, List.map_cons, List.map_nil, valNats_cons, valNats_nil, modulus_eq]
  norm_num
  omega

theorem foldedNats_lt {V : Nat} (h : V < 2 ^ 511) : ∀ x ∈ foldedNats V, x < 2 ^ 64 := by
  intro x hx
  obtain ⟨i, _, rfl⟩ := List.mem_map.1 hx
  have h1 : V / 2 ^ 448 < 2 ^ 63 := by norm_num only at h ⊢; omega
  have h2 := Nat.mod_lt (V / 2 ^ (56 * i)) (show 0 < 2 ^ 56 by norm_num)
  generalize V / 2 ^ (56 * i) % 2 ^ 56 = y at *
  generalize V / 2 ^ 448 = z at *
  norm_num only at *
  split <;> omega

theorem nats_foldedDigits {V : Nat} (h : V < 2 ^ 511) : (foldedDigits V).nats = foldedNats V := by
  rw [← ofNats_foldedNats]
  exact Elem.nats_ofNats (by simp) (foldedNats_lt h)

theorem val_foldedDigits {V : Nat} (h : V < 2 ^ 511) : (foldedDigits V).val + V / 2 ^ 448 * modulus = V := by
  rw [Elem.val, nats_foldedDigits h, valNats_foldedNats]

/-- `RF` keeps the residue (R92 item 1). -/
theorem valNats_foldedNats_mod (V : Nat) : valNats (foldedNats V) % modulus = V % modulus := by
  conv_rhs => rw [← valNats_foldedNats V, Nat.add_mul_mod_self_right]

theorem residue_foldedDigits {V : Nat} (h : V < 2 ^ 511) : residue (foldedDigits V) = V % modulus := by
  rw [residue, Elem.val, nats_foldedDigits h, valNats_foldedNats_mod]

theorem toNat_foldedDigits {V : Nat} (h : V < 2 ^ 511) (i : LimbIx) :
    (foldedDigits V)[i.val].toNat =
      V / 2 ^ (56 * i.val) % 2 ^ 56 + (if i.val = 0 ∨ i.val = 4 then V / 2 ^ 448 else 0) := by
  rw [← Elem.getElem_nats _ _ (by simp)]
  simp only [nats_foldedDigits h, foldedNats, List.getElem_map, List.getElem_range]

/-- The result of `RF` is weakly reduced when the excess is at most 256 (R92 items 2 and 3). -/
theorem WR_foldedDigits {V : Nat} (h : V < 257 * 2 ^ 448) : WR (foldedDigits V) := by
  intro i
  rw [toNat_foldedDigits (lt_trans h (by norm_num))]
  have h1 : V / 2 ^ 448 ≤ 256 := by norm_num only at h ⊢; omega
  have h2 := Nat.mod_lt (V / 2 ^ (56 * i.val)) (show 0 < 2 ^ 56 by norm_num)
  generalize V / 2 ^ (56 * i.val) % 2 ^ 56 = y at *
  generalize V / 2 ^ 448 = z at *
  simp only [m56]
  norm_num only at *
  split <;> omega

/-- Weak reduction of any element, in closed form. -/
theorem weakReduce_eq (a : Elem) : weakReduce a = foldedDigits a.val := by
  rw [weakReduce, rippleFold_eq a.length_nats, ofNats_foldedNats, Elem.val]

theorem Elem.val_lt_pow (a : Elem) : a.val < 2 ^ 511 := lt_trans a.val_lt (by norm_num)

/-- Weak reduction of any 64-bit limbs is weakly reduced (R95). -/
theorem WR_weakReduce (a : Elem) : WR (weakReduce a) := by
  rw [weakReduce_eq]
  exact WR_foldedDigits a.val_lt

/-- Weak reduction of any 64-bit limbs keeps the residue (R95). -/
theorem residue_weakReduce (a : Elem) : residue (weakReduce a) = residue a := by
  rw [weakReduce_eq, residue_foldedDigits (Elem.val_lt_pow a), residue]

/-- Two passes of `RF`, in closed form. -/
theorem rippleFoldTwice_eq {C : List Nat} (hC : C.length = 8) :
    rippleFoldTwice C = foldedDigits (valNats (foldedNats (valNats C))) := by
  rw [rippleFoldTwice, rippleFold_eq hC, rippleFold_eq (length_foldedNats _), ofNats_foldedNats]

/-- After one pass of coefficients below `2^128` the excess is at most 1 (R92 item 5). -/
theorem valNats_foldedNats_lt {V : Nat} (h : V < 2 ^ 521) : valNats (foldedNats V) < 2 * 2 ^ 448 := by
  have h1 := valNats_foldedNats V
  rw [modulus_eq] at h1
  norm_num only at *
  omega

theorem valNats_lt_of_wide {C : List Nat} (hC : C.length = 8) (h : ∀ x ∈ C, x < 2 ^ 128) : valNats C < 2 ^ 521 := by
  obtain ⟨x0, x1, x2, x3, x4, x5, x6, x7, rfl⟩ := eq_eight hC
  simp only [List.mem_cons, List.not_mem_nil, or_false, forall_eq_or_imp, forall_eq] at h
  simp only [valNats_cons, valNats_nil]
  norm_num only at *
  omega

/-- Two passes over coefficients below `2^128` give a weakly reduced element of the same residue (R92 item 5). -/
theorem rippleFoldTwice_spec {C : List Nat} (hC : C.length = 8) (h : ∀ x ∈ C, x < 2 ^ 128) :
    WR (rippleFoldTwice C) ∧ residue (rippleFoldTwice C) = valNats C % modulus := by
  have h1 := valNats_foldedNats_lt (valNats_lt_of_wide hC h)
  rw [rippleFoldTwice_eq hC]
  refine ⟨WR_foldedDigits (lt_trans h1 (by norm_num)), ?_⟩
  rw [residue_foldedDigits (lt_trans h1 (by norm_num)), valNats_foldedNats_mod]

/-- A folded value with carry at most `k` is within `k` (R92 item 2). -/
theorem WRWithin_foldedDigits {V k : Nat} (hk : k ≤ 256) (h : V / 2 ^ 448 ≤ k) : WRWithin k (foldedDigits V) := by
  have hV : V < 2 ^ 511 := by
    have := Nat.div_add_mod V (2 ^ 448)
    have := Nat.mod_lt V (show 0 < 2 ^ 448 by norm_num)
    have : 2 ^ 448 * (V / 2 ^ 448) ≤ 2 ^ 448 * 256 := Nat.mul_le_mul_left _ (h.trans hk)
    norm_num only at *
    omega
  intro i
  rw [toNat_foldedDigits hV]
  have h56 : V / 2 ^ (56 * i.val) % 2 ^ 56 < 2 ^ 56 := Nat.mod_lt _ (by norm_num)
  unfold m56
  split <;> omega

/-- Two passes leave limbs 0 and 4 at most `M56 + 1` (R92 item 5). -/
theorem WRWithin_rippleFoldTwice {C : List Nat} (hC : C.length = 8) (h : ∀ x ∈ C, x < 2 ^ 128) :
    WRWithin 1 (rippleFoldTwice C) := by
  rw [rippleFoldTwice_eq hC]
  refine WRWithin_foldedDigits (by norm_num) ?_
  have h1 := valNats_foldedNats_lt (valNats_lt_of_wide hC h)
  generalize valNats (foldedNats (valNats C)) = W at h1
  exact Nat.lt_succ_iff.1 (Nat.div_lt_of_lt_mul (by rw [Nat.mul_comm]; exact h1))

/-! ## `SR` -/

theorem nats_pLimbs : pLimbs.nats = digitNats modulus := by decide +kernel

theorem valNats_pLimbs : valNats pLimbs.nats = modulus := by
  rw [nats_pLimbs, valNats_digitNats, Nat.mod_eq_of_lt modulus_lt]

theorem borrowPass_spec (s : Int) (r q : List Nat) (h : r.length = q.length) :
    (borrowPass s r q).1.length = r.length ∧ (∀ x ∈ (borrowPass s r q).1, x < 2 ^ 56) ∧
      (valNats (borrowPass s r q).1 : Int) + 2 ^ (56 * r.length) * (borrowPass s r q).2 =
        valNats r - valNats q + s := by
  induction r generalizing s q with
  | nil => cases q <;> simp_all [borrowPass]
  | cons x r ih =>
    cases q with
    | nil => simp at h
    | cons y q =>
      obtain ⟨h1, h2, h3⟩ := ih ((s + x - y) / 2 ^ 56) q (by simpa using h)
      have hm := Int.emod_nonneg (s + x - y) (show (2 ^ 56 : Int) ≠ 0 by norm_num)
      have hl := Int.emod_lt_of_pos (s + x - y) (show (0 : Int) < 2 ^ 56 by norm_num)
      simp only [borrowPass, List.length_cons, List.mem_cons, forall_eq_or_imp, valNats_cons]
      refine ⟨by rw [h1], ⟨by omega, h2⟩, ?_⟩
      rw [Nat.cast_add, Nat.cast_add, Nat.cast_add, Nat.cast_mul, Nat.cast_mul, Nat.cast_mul, Nat.cast_pow,
        Nat.cast_ofNat, Int.toNat_of_nonneg hm, show 56 * (r.length + 1) = 56 + 56 * r.length by ring, pow_add, mul_assoc, add_assoc,
        ← mul_add, h3]
      have := Int.emod_add_mul_ediv (s + x - y) (2 ^ 56)
      linarith

/-- The add-back with the mask of the borrow (R96): the digits of the sum. -/
theorem addBack_eq {d : List Nat} (hd : d.length = 8) (s : Int) :
    addBack d s = digitNats (valNats d + if s = -1 then modulus else 0) := by
  have hl : (List.zipWith (· + ·) d (pLimbs.nats.map fun q => if s = -1 then q else 0)).length = 8 := by simp [hd]
  rw [addBack, ripple_eight hl]
  simp only
  congr 1
  have hz : ∀ (a b : List Nat), a.length = b.length → valNats (List.zipWith (· + ·) a b) = valNats a + valNats b := by
    intro a
    induction a with
    | nil => intro b h; cases b <;> simp_all
    | cons x a ih =>
      intro b h
      cases b with
      | nil => simp at h
      | cons y b =>
        simp only [List.zipWith_cons_cons, valNats_cons]
        rw [ih b (by simpa using h)]
        ring
  rw [hz _ _ (by simp [hd])]
  split
  · rw [List.map_id'' (fun _ => rfl), valNats_pLimbs]
  · congr 1

/-- Strong reduction of any element: the assertion never fails and the result is canonical (R96, R98). -/
theorem strongReduce_eq (a : Elem) : strongReduce a = .ok (limbsOf (a.val % modulus)) := by
  have hW := valNats_foldedNats_mod a.val
  have hb := valNats_foldedNats a.val
  have hV := a.val_lt
  obtain ⟨h1, h2, h3⟩ := borrowPass_spec 0 (rippleFold a.nats) pLimbs.nats
    (by rw [rippleFold_eq a.length_nats]; simp)
  rw [valNats_pLimbs, rippleFold_eq a.length_nats, ← Elem.val, length_foldedNats] at h3
  rw [rippleFold_eq a.length_nats, ← Elem.val] at h1 h2
  rw [length_foldedNats] at h1
  have hD := valNats_lt h2
  rw [h1] at hD
  simp only [strongReduce]
  rw [rippleFold_eq a.length_nats, ← Elem.val]
  generalize borrowPass 0 (foldedNats a.val) pLimbs.nats = d at *
  rw [addBack_eq h1]
  generalize valNats (foldedNats a.val) = W at *
  generalize valNats d.1 = D at *
  generalize a.val = V at *
  have hW2 : W < 2 * modulus := by
    rw [modulus_eq] at *
    norm_num only at *
    omega
  have hs : d.2 = 0 ∧ modulus ≤ W ∧ D = W - modulus ∨ d.2 = -1 ∧ W < modulus ∧ D + modulus = W + 2 ^ 448 := by
    clear hW hb
    rw [modulus_eq] at *
    norm_num only at *
    omega
  rcases hs with ⟨h0, hp, h⟩ | ⟨h0, hp, h⟩
  · rw [if_pos (.inl h0), ofNats_digitNats, if_neg (by rw [h0]; decide), Nat.add_zero, h, ← hW,
      Nat.mod_eq_sub_mod hp, Nat.mod_eq_of_lt (by omega)]
  · rw [if_pos (.inr h0), if_pos h0, h, ← hW, Nat.mod_eq_of_lt hp, ofNats_digitNats]
    congr 1
    apply Elem.ext_nats
    rw [nats_limbsOf, nats_limbsOf, eq_digitNats (length_digitNats _) (digitNats_lt _), valNats_digitNats,
      Nat.add_mod_right, Nat.mod_eq_of_lt (lt_trans hp modulus_lt)]

end Sys2Proof.Machine
end

