-- ==== Sys2Proof/Laws/Flags.lean ====
section
/-! SUPPORT. Raw sums and differences as values, and the masks in terms of residues. -/

set_option Elab.async false

namespace Sys2Proof.Machine

set_option exponentiation.threshold 1000

/-! ## Raw sums and differences -/

theorem Elem.limb_toNat_eq (a : Elem) (i : Nat) : (Elem.limb a i).toNat = a.nats.getD i 0 := by
  simp only [Elem.limb, Elem.nats, List.getD_eq_getElem?_getD, List.getElem?_map]
  cases a.toList[i]? <;> rfl

theorem limb_eq (a : Elem) (i : LimbIx) : Elem.limb a i.val = a[i.val] := Elem.limb_toNat a i

/-- The eight limbs of a weakly reduced element with their bounds. -/
theorem WR_nats {a : Elem} (h : WR a) : ∃ x0 x1 x2 x3 x4 x5 x6 x7, a.nats = [x0, x1, x2, x3, x4, x5, x6, x7] ∧
    x0 ≤ m56 + 256 ∧ x1 ≤ m56 ∧ x2 ≤ m56 ∧ x3 ≤ m56 ∧ x4 ≤ m56 + 256 ∧ x5 ≤ m56 ∧ x6 ≤ m56 ∧ x7 ≤ m56 := by
  obtain ⟨x0, x1, x2, x3, x4, x5, x6, x7, e⟩ := eq_eight a.length_nats
  refine ⟨x0, x1, x2, x3, x4, x5, x6, x7, e, ?_⟩
  have hh : ∀ i : LimbIx, a.nats.getD i.val 0 ≤ if i.val = 0 ∨ i.val = 4 then m56 + 256 else m56 := fun i => by
    rw [Elem.nats_getD]; exact h i
  rw [e] at hh
  exact ⟨hh 0, hh 1, hh 2, hh 3, hh 4, hh 5, hh 6, hh 7⟩

theorem val_rawAdd (a b : Elem) : (rawAdd a b).val = wrappedSum a b := by
  refine congrArg valNats ?_
  apply List.ext_getElem (by simp)
  intro i h1 h2
  have hi : i < 8 := by simpa using h1
  have ha := limb_eq a ⟨i, hi⟩
  have hb := limb_eq b ⟨i, hi⟩
  simp only at ha hb
  rw [Elem.getElem_nats]
  simp only [rawAdd, Vector.getElem_ofFn, List.getElem_map, List.getElem_range, ha, hb, BitVec.toNat_add]

theorem val_rawSub (a b : Elem) : (rawSub a b).val = wrappedDifference a b := by
  refine congrArg valNats ?_
  apply List.ext_getElem (by simp)
  intro i h1 h2
  have hi : i < 8 := by simpa using h1
  have ha := limb_eq a ⟨i, hi⟩
  have hb := limb_eq b ⟨i, hi⟩
  have hp := limb_eq pLimbs ⟨i, hi⟩
  simp only at ha hb hp
  rw [Elem.getElem_nats]
  simp only [rawSub, Vector.getElem_ofFn, List.getElem_map, List.getElem_range, ha, hb, hp, BitVec.toNat_add,
    BitVec.toNat_sub, BitVec.toNat_mul, show (2 : Word).toNat = 2 from rfl]
  have hlt := b[i].isLt
  generalize a[i].toNat = x at *
  generalize b[i].toNat = y at *
  generalize pLimbs[i].toNat = z at *
  clear h1 h2 ha hb hp
  norm_num only at *
  omega

/-- A biased difference that does not wrap. -/
theorem biased_limb {x y q : Nat} (h1 : y ≤ 2 * q) (h2 : x + 2 * q < 2 ^ 64) :
    (x + (2 ^ 64 - y) + 2 * q) % 2 ^ 64 + y = x + 2 * q := by
  omega

/-- No limb sum of weakly reduced elements wraps (R93). -/
theorem wrappedSum_of_WR {a b : Elem} (ha : WR a) (hb : WR b) : wrappedSum a b = a.val + b.val := by
  obtain ⟨x0, x1, x2, x3, x4, x5, x6, x7, e, g0, g1, g2, g3, g4, g5, g6, g7⟩ := WR_nats ha
  obtain ⟨y0, y1, y2, y3, y4, y5, y6, y7, f, k0, k1, k2, k3, k4, k5, k6, k7⟩ := WR_nats hb
  simp only [m56] at g0 g1 g2 g3 g4 g5 g6 g7 k0 k1 k2 k3 k4 k5 k6 k7
  have e' : a.val = valNats [x0, x1, x2, x3, x4, x5, x6, x7] := congrArg valNats e
  have f' : b.val = valNats [y0, y1, y2, y3, y4, y5, y6, y7] := congrArg valNats f
  simp only [wrappedSum, Elem.limb_toNat_eq, e', f', e, f, List.range, List.range.loop, List.map_cons, List.map_nil,
    valNats_cons, valNats_nil, List.getD_cons_zero, List.getD_cons_succ]
  rw [Nat.mod_eq_of_lt (show x0 + y0 < 2 ^ 64 by omega), Nat.mod_eq_of_lt (show x1 + y1 < 2 ^ 64 by omega),
    Nat.mod_eq_of_lt (show x2 + y2 < 2 ^ 64 by omega), Nat.mod_eq_of_lt (show x3 + y3 < 2 ^ 64 by omega),
    Nat.mod_eq_of_lt (show x4 + y4 < 2 ^ 64 by omega), Nat.mod_eq_of_lt (show x5 + y5 < 2 ^ 64 by omega),
    Nat.mod_eq_of_lt (show x6 + y6 < 2 ^ 64 by omega), Nat.mod_eq_of_lt (show x7 + y7 < 2 ^ 64 by omega)]
  ring

/-- No biased limb difference of weakly reduced elements wraps (R94). -/
theorem wrappedDifference_of_WR {a b : Elem} (ha : WR a) (hb : WR b) :
    wrappedDifference a b + b.val = a.val + 2 * modulus := by
  obtain ⟨x0, x1, x2, x3, x4, x5, x6, x7, e, g0, g1, g2, g3, g4, g5, g6, g7⟩ := WR_nats ha
  obtain ⟨y0, y1, y2, y3, y4, y5, y6, y7, f, k0, k1, k2, k3, k4, k5, k6, k7⟩ := WR_nats hb
  obtain ⟨q0, q1, q2, q3, q4, q5, q6, q7, hq, j0, j1, j2, j3, j4, j5, j6, j7⟩ : ∃ q0 q1 q2 q3 q4 q5 q6 q7,
      pLimbs.nats = [q0, q1, q2, q3, q4, q5, q6, q7] ∧ q0 = m56 ∧ q1 = m56 ∧ q2 = m56 ∧ q3 = m56 ∧ q4 = m56 - 1 ∧
        q5 = m56 ∧ q6 = m56 ∧ q7 = m56 :=
    ⟨_, _, _, _, _, _, _, _, rfl, by decide +kernel, by decide +kernel, by decide +kernel, by decide +kernel,
      by decide +kernel, by decide +kernel, by decide +kernel, by decide +kernel⟩
  simp only [m56] at g0 g1 g2 g3 g4 g5 g6 g7 k0 k1 k2 k3 k4 k5 k6 k7 j0 j1 j2 j3 j4 j5 j6 j7
  have e' : a.val = valNats [x0, x1, x2, x3, x4, x5, x6, x7] := congrArg valNats e
  have f' : b.val = valNats [y0, y1, y2, y3, y4, y5, y6, y7] := congrArg valNats f
  have hq' : modulus = valNats [q0, q1, q2, q3, q4, q5, q6, q7] := by rw [← hq]; exact valNats_pLimbs.symm
  simp only [wrappedDifference, Elem.limb_toNat_eq, e', f', hq', e, f, hq, List.range, List.range.loop, List.map_cons,
    List.map_nil, valNats_cons, valNats_nil, List.getD_cons_zero, List.getD_cons_succ]
  have b0 := biased_limb (x := x0) (y := y0) (q := q0) (by omega) (by omega)
  have b1 := biased_limb (x := x1) (y := y1) (q := q1) (by omega) (by omega)
  have b2 := biased_limb (x := x2) (y := y2) (q := q2) (by omega) (by omega)
  have b3 := biased_limb (x := x3) (y := y3) (q := q3) (by omega) (by omega)
  have b4 := biased_limb (x := x4) (y := y4) (q := q4) (by omega) (by omega)
  have b5 := biased_limb (x := x5) (y := y5) (q := q5) (by omega) (by omega)
  have b6 := biased_limb (x := x6) (y := y6) (q := q6) (by omega) (by omega)
  have b7 := biased_limb (x := x7) (y := y7) (q := q7) (by omega) (by omega)
  generalize (x0 + (2 ^ 64 - y0) + 2 * q0) % 2 ^ 64 = z0 at *
  generalize (x1 + (2 ^ 64 - y1) + 2 * q1) % 2 ^ 64 = z1 at *
  generalize (x2 + (2 ^ 64 - y2) + 2 * q2) % 2 ^ 64 = z2 at *
  generalize (x3 + (2 ^ 64 - y3) + 2 * q3) % 2 ^ 64 = z3 at *
  generalize (x4 + (2 ^ 64 - y4) + 2 * q4) % 2 ^ 64 = z4 at *
  generalize (x5 + (2 ^ 64 - y5) + 2 * q5) % 2 ^ 64 = z5 at *
  generalize (x6 + (2 ^ 64 - y6) + 2 * q6) % 2 ^ 64 = z6 at *
  generalize (x7 + (2 ^ 64 - y7) + 2 * q7) % 2 ^ 64 = z7 at *
  linear_combination b0 + 2 ^ 56 * b1 + 2 ^ 112 * b2 + 2 ^ 168 * b3 + 2 ^ 224 * b4 + 2 ^ 280 * b5 + 2 ^ 336 * b6 +
    2 ^ 392 * b7

theorem wrappedSum_lt (a b : Elem) : wrappedSum a b < 257 * 2 ^ 448 := by
  rw [← val_rawAdd]; exact Elem.val_lt _

theorem wrappedDifference_lt (a b : Elem) : wrappedDifference a b < 257 * 2 ^ 448 := by
  rw [← val_rawSub]; exact Elem.val_lt _

/-! ## Masks -/

theorem except_map_ok {ε α β : Type} (f : α → β) (a : α) :
    (Except.ok a : Except ε α).map f = .ok (f a) := rfl

theorem except_bind_ok {ε α β : Type} (f : α → Except ε β) (a : α) :
    (Except.ok a : Except ε α).bind f = f a := rfl

theorem maskOf_cases (p : Bool) : maskOf p = all0 ∨ maskOf p = all1 := by cases p <;> simp [maskOf]

theorem maskOf_eq_all1 {p : Bool} : maskOf p = all1 ↔ p = true := by cases p <;> simp [maskOf, all0, all1]

theorem maskOf_eq_all0 {p : Bool} : maskOf p = all0 ↔ p = false := by cases p <;> simp [maskOf, all0, all1]

/-- The low bit of canonical limbs is the parity of the value. -/
theorem lowBitMask_limbsOf (v : Nat) : lowBitMask (limbsOf v) = maskOf (v % 2 == 1) := by
  have h : (limbsOf v)[0].getLsbD 0 = (v % 2 == 1) := by
    rw [← BitVec.testBit_toNat]
    simp only [limbsOf, Vector.getElem_ofFn, BitVec.toNat_ofNat, Nat.testBit_zero, Nat.mul_zero, Nat.pow_zero,
      Nat.div_one]
    rw [show v % 2 ^ 56 % 2 ^ 64 % 2 = v % 2 by omega]
    rfl
  rw [lowBitMask, h]

theorem foldl_or_eq_zero (l : List Word) (c : Word) : l.foldl (· ||| ·) c = 0 ↔ c = 0 ∧ ∀ x ∈ l, x = 0 := by
  induction l generalizing c with
  | nil => simp
  | cons x l ih =>
    rw [List.foldl_cons, ih]
    simp only [List.mem_cons, forall_eq_or_imp]
    rw [show (c ||| x = 0) ↔ (c = 0 ∧ x = 0) by exact BitVec.or_eq_zero_iff]
    tauto

/-- All canonical limbs are zero exactly when the value is. -/
theorem orLimbs_limbsOf {v : Nat} (hv : v < 2 ^ 448) : (orLimbs (limbsOf v) == 0) = (v == 0) := by
  rw [Bool.eq_iff_iff, beq_iff_eq, beq_iff_eq, orLimbs, foldl_or_eq_zero]
  constructor
  · rintro ⟨-, h⟩
    have hz : limbsOf v = limbsOf 0 := by
      apply Vector.ext
      intro i hi
      rw [h (limbsOf v)[i] (by simp)]
      simp [limbsOf]
    rw [← val_limbsOf hv, hz, val_limbsOf (by norm_num)]
  · rintro rfl
    refine ⟨rfl, fun x hx => ?_⟩
    have hz : (limbsOf 0).toList = List.replicate 8 0 := by decide +kernel
    rw [hz] at hx
    exact List.eq_of_mem_replicate hx

theorem val_weakReduce_mod (a : Elem) : (weakReduce a).val % modulus = a.val % modulus := residue_weakReduce a

/-- `HIBITV` of any element: the parity of the canonical doubled value (R111). -/
theorem hibitV_eq (x : Elem) : hibitV x = .ok (maskOf (wrappedSum x x % modulus % 2 == 1)) := by
  have h : hibitV x = .ok (lowBitMask (limbsOf ((weakReduce (rawAdd x x)).val % modulus))) := by
    rw [hibitV, strongReduce_eq, except_map_ok]
  rw [h, lowBitMask_limbsOf, val_weakReduce_mod, val_rawAdd]

theorem lobitV_eq (x : Elem) : lobitV x = .ok (maskOf (residue x % 2 == 1)) := by
  have h : lobitV x = .ok (lowBitMask (limbsOf (residue x))) := by
    rw [lobitV, strongReduce_eq, except_map_ok, residue]
  rw [h, lowBitMask_limbsOf]

theorem mod_modulus_lt (n : Nat) : n % modulus < 2 ^ 448 := Nat.lt_trans (Nat.mod_lt n modulus_pos) modulus_lt

theorem orLimbs_limbsOf_mod (n : Nat) : (orLimbs (limbsOf (n % modulus)) == 0) = (n % modulus == 0) :=
  orLimbs_limbsOf (mod_modulus_lt n)

/-- The mask of EQ on any elements: the biased difference is a multiple of `p` (R113). -/
theorem eqV_eq (a b : Elem) : eqV a b = .ok (maskOf (wrappedDifference a b % modulus == 0)) := by
  have h : eqV a b = .ok (maskOf (orLimbs (limbsOf ((weakReduce (rawSub a b)).val % modulus)) == 0)) := by
    rw [eqV, strongReduce_eq, except_map_ok]
  rw [h, orLimbs_limbsOf_mod, val_weakReduce_mod, val_rawSub]

theorem halfModulus_eq : 2 * halfModulus + 1 = modulus := by decide +kernel

/-- The canonical double of a residue is odd exactly in the upper half. -/
theorem double_odd {r p q : Nat} (hp : 2 * q + 1 = p) (hr : r < p) : (r + r) % p % 2 = 1 ↔ q < r := by
  by_cases h : r + r < p
  · rw [Nat.mod_eq_of_lt h]; omega
  · rw [Nat.mod_eq_sub_mod (show p ≤ r + r by omega), Nat.mod_eq_of_lt (show r + r - p < p by omega)]; omega

/-- For weakly reduced sources the hibit is set exactly in the upper half of the field (R111). -/
theorem hibitV_of_WR {x : Elem} (h : WR x) : hibitV x = .ok (maskOf (decide (halfModulus < residue x))) := by
  have hd : (wrappedSum x x % modulus % 2 == 1) = decide (halfModulus < residue x) := by
    have h1 : wrappedSum x x % modulus = (residue x + residue x) % modulus := by
      rw [wrappedSum_of_WR h h]; exact Nat.add_mod _ _ _
    rw [h1, Bool.eq_iff_iff, beq_iff_eq, decide_eq_true_iff]
    exact double_odd halfModulus_eq (residue_lt x)
  rw [hibitV_eq, hd]

/-- For weakly reduced sources EQ compares residues (R113). -/
theorem eqV_of_WR {a b : Elem} (ha : WR a) (hb : WR b) : eqV a b = .ok (maskOf (residue a == residue b)) := by
  have h0 : (wrappedDifference a b + b.val) ≡ a.val [MOD modulus] := by
    rw [wrappedDifference_of_WR ha hb]
    exact Nat.add_mul_mod_self_right _ _ _
  have hd : (wrappedDifference a b % modulus == 0) = (residue a == residue b) := by
    rw [Bool.eq_iff_iff, beq_iff_eq, beq_iff_eq]
    constructor
    · intro hz
      have h1 : (wrappedDifference a b + b.val) ≡ 0 + b.val [MOD modulus] := Nat.ModEq.add_right _ hz
      rw [Nat.zero_add] at h1
      exact h0.symm.trans h1
    · intro he
      have h1 : (wrappedDifference a b + b.val) ≡ 0 + b.val [MOD modulus] := by
        rw [Nat.zero_add]; exact h0.trans he
      exact Nat.ModEq.add_right_cancel' b.val h1
  rw [eqV_eq, hd]

end Sys2Proof.Machine
end

