-- ==== Sys2Proof/Laws/Multiply.lean ====
section
/-! SUPPORT. What the multiplier does: the coefficients without wrap (spec 42_multiply.md R122) and the residues of the
MUL, SQR, SQRN and MULW datapaths. -/

set_option Elab.async false

namespace Sys2Proof.Machine

set_option exponentiation.threshold 1000

/-! ## Coefficients of any operands -/

@[simp] theorem length_mulCoef (a b : Elem) : (mulCoef a b).length = 8 := by simp [mulCoef]

theorem mulCoef_lt (a b : Elem) : ∀ x ∈ mulCoef a b, x < 2 ^ 128 := by
  intro x hx
  rcases List.mem_append.1 hx with h | h <;>
    · obtain ⟨i, _, rfl⟩ := List.mem_map.1 h
      exact BitVec.isLt _

/-- The product of any operands is weakly reduced (R123). -/
theorem WR_mulElem (a b : Elem) : WR (mulElem a b) := (rippleFoldTwice_spec (length_mulCoef a b) (mulCoef_lt a b)).1

theorem sqrElem_eq (a : Elem) : sqrElem a = mulElem a a := rfl

theorem WR_sqrElem (a : Elem) : WR (sqrElem a) := WR_mulElem a a

/-! ## Products and sums without wrap -/

theorem toNat_wideMul (x y : Word) : (wideMul x y).toNat = x.toNat * y.toNat := by
  have h : x.toNat * y.toNat < 2 ^ 128 := by
    calc x.toNat * y.toNat < 2 ^ 64 * 2 ^ 64 := Nat.mul_lt_mul'' x.isLt y.isLt
      _ = 2 ^ 128 := by norm_num
  simp only [wideMul, BitVec.toNat_mul, BitVec.toNat_setWidth]
  rw [Nat.mod_eq_of_lt (lt_trans x.isLt (by norm_num)), Nat.mod_eq_of_lt (lt_trans y.isLt (by norm_num)),
    Nat.mod_eq_of_lt h]

theorem accumulate_foldl (term : Nat → Wide) (B : Nat) (js : List Nat) (c : Wide)
    (h : ∀ j ∈ js, (term j).toNat ≤ B) (hB : c.toNat + js.length * B < 2 ^ 128) :
    (js.foldl (fun acc j => acc + term j) c).toNat = c.toNat + (js.map fun j => (term j).toNat).sum := by
  induction js generalizing c with
  | nil => simp
  | cons j js ih =>
    simp only [List.mem_cons, forall_eq_or_imp] at h
    simp only [List.length_cons, Nat.succ_mul] at hB
    have h1 : (c + term j).toNat = c.toNat + (term j).toNat := by
      rw [BitVec.toNat_add, Nat.mod_eq_of_lt]
      have := h.1
      omega
    rw [List.foldl_cons, ih _ h.2 (by rw [h1]; have := h.1; omega), h1]
    simp only [List.map_cons, List.sum_cons]
    omega

/-- A sum of products that stays below `2^128` does not wrap. -/
theorem toNat_accumulate (term : Nat → Wide) (B : Nat) (js : List Nat) (h : ∀ j ∈ js, (term j).toNat ≤ B)
    (hB : js.length * B < 2 ^ 128) : (accumulate term js).toNat = (js.map fun j => (term j).toNat).sum := by
  have := accumulate_foldl term B js 0 h (by simpa using hB)
  simpa [accumulate] using this

theorem sum_map_le (f : Nat → Nat) (B : Nat) (js : List Nat) (h : ∀ j ∈ js, f j ≤ B) :
    (js.map f).sum ≤ js.length * B := by
  induction js with
  | nil => simp
  | cons j js ih =>
    simp only [List.mem_cons, forall_eq_or_imp] at h
    have := ih h.2
    have := h.1
    simp only [List.map_cons, List.sum_cons, List.length_cons, Nat.succ_mul]
    omega

/-- Two partial sums of one accumulator, of at most four products in all. -/
theorem toNat_two_sums (t u : Nat → Wide) (i : Nat) (hi : i < 4) (ht : ∀ j, (t j).toNat ≤ 2 ^ 118)
    (hu : ∀ j, (u j).toNat ≤ 2 ^ 118) :
    (accumulate t (degreeLow i) + accumulate u (degreeHigh i)).toNat =
        ((degreeLow i).map fun j => (t j).toNat).sum + ((degreeHigh i).map fun j => (u j).toNat).sum ∧
      ((degreeLow i).map fun j => (t j).toNat).sum + ((degreeHigh i).map fun j => (u j).toNat).sum ≤ 2 ^ 120 := by
  have hl : (degreeLow i).length + (degreeHigh i).length = 4 := by
    simp only [degreeLow, degreeHigh, List.length_range, List.length_drop]; omega
  have s1 := sum_map_le (fun j => (t j).toNat) (2 ^ 118) (degreeLow i) fun j _ => ht j
  have s2 := sum_map_le (fun j => (u j).toNat) (2 ^ 118) (degreeHigh i) fun j _ => hu j
  have hs : (degreeLow i).length * 2 ^ 118 + (degreeHigh i).length * 2 ^ 118 = 2 ^ 120 := by
    rw [← Nat.add_mul, hl]; norm_num
  norm_num only at *
  rw [BitVec.toNat_add, toNat_accumulate t _ _ (fun j _ => ht j) (by norm_num only; omega),
    toNat_accumulate u _ _ (fun j _ => hu j) (by norm_num only; omega)]
  refine ⟨Nat.mod_eq_of_lt ?_, by omega⟩
  norm_num only
  omega

/-! ## Coefficients of weakly reduced operands -/

theorem limb_lt_of_WR {a : Elem} (h : WR a) (j : Nat) : (Elem.limb a j).toNat < 2 ^ 57 := by
  by_cases hj : j < 8
  · have h1 := h ⟨j, hj⟩
    have h2 := limb_eq a ⟨j, hj⟩
    simp only at h1 h2
    rw [h2]
    simp only [m56] at h1
    split at h1 <;> omega
  · rw [Elem.limb_toNat_eq, List.getD_eq_default _ _ (by simp; omega)]
    norm_num

theorem toNat_crossSum {a : Elem} (h : WR a) (j : Nat) :
    (crossSum a j).toNat = (Elem.limb a j).toNat + (Elem.limb a (j + 4)).toNat := by
  have h1 := limb_lt_of_WR h j
  have h2 := limb_lt_of_WR h (j + 4)
  rw [crossSum, BitVec.toNat_add]
  omega

theorem toNat_crossSum2 {a : Elem} (h : WR a) (j : Nat) :
    (crossSum2 a j).toNat = (Elem.limb a j).toNat + 2 * (Elem.limb a (j + 4)).toNat := by
  have h1 := limb_lt_of_WR h j
  have h2 := limb_lt_of_WR h (j + 4)
  rw [crossSum2, BitVec.toNat_add, toNat_crossSum h]
  omega

theorem toNat_wideMul_le {x y : Word} (hx : x.toNat < 2 ^ 59) (hy : y.toNat < 2 ^ 59) :
    (wideMul x y).toNat ≤ 2 ^ 118 := by
  rw [toNat_wideMul]
  exact le_of_lt (calc x.toNat * y.toNat < 2 ^ 59 * 2 ^ 59 := Nat.mul_lt_mul'' hx hy
    _ = 2 ^ 118 := by norm_num)

/-- The three accumulators of coefficient `i` as natural numbers, when nothing wraps. -/
theorem accums_of_WR {a b : Elem} (ha : WR a) (hb : WR b) {i : Nat} (hi : i < 4) :
    ((accum2 a b i).toNat =
        ((degreeLow i).map fun j => (Elem.limb a j).toNat * (Elem.limb b (i - j)).toNat).sum +
          ((degreeHigh i).map fun j => (Elem.limb a j).toNat * (Elem.limb b (i + 8 - j)).toNat).sum ∧
      (accum2 a b i).toNat ≤ 2 ^ 120) ∧
    ((accum1 a b i).toNat =
        ((degreeLow i).map fun j => ((Elem.limb a j).toNat + (Elem.limb a (j + 4)).toNat) *
          ((Elem.limb b (i - j)).toNat + (Elem.limb b (i - j + 4)).toNat)).sum +
          ((degreeHigh i).map fun j => ((Elem.limb a j).toNat + (Elem.limb a (j + 4)).toNat) *
            ((Elem.limb b (i + 4 - j)).toNat + 2 * (Elem.limb b (i + 4 - j + 4)).toNat)).sum ∧
      (accum1 a b i).toNat ≤ 2 ^ 120) ∧
    ((accum0 a b i).toNat =
        ((degreeLow i).map fun j => (Elem.limb a (j + 4)).toNat * (Elem.limb b (i - j + 4)).toNat).sum +
          ((degreeHigh i).map fun j => (Elem.limb a (j + 4)).toNat *
            ((Elem.limb b (i + 4 - j)).toNat + (Elem.limb b (i + 4 - j + 4)).toNat)).sum ∧
      (accum0 a b i).toNat ≤ 2 ^ 120) := by
  have la := fun j => limb_lt_of_WR ha j
  have lb := fun j => limb_lt_of_WR hb j
  have lc : ∀ j, (Elem.limb a j).toNat < 2 ^ 59 := fun j => lt_trans (la j) (by norm_num)
  have ld : ∀ j, (Elem.limb b j).toNat < 2 ^ 59 := fun j => lt_trans (lb j) (by norm_num)
  have ca : ∀ j, (crossSum a j).toNat < 2 ^ 59 := fun j => by
    rw [toNat_crossSum ha]; have := la j; have := la (j + 4); omega
  have cb : ∀ j, (crossSum b j).toNat < 2 ^ 59 := fun j => by
    rw [toNat_crossSum hb]; have := lb j; have := lb (j + 4); omega
  have cc : ∀ j, (crossSum2 b j).toNat < 2 ^ 59 := fun j => by
    rw [toNat_crossSum2 hb]; have := lb j; have := lb (j + 4); omega
  have r2 := toNat_two_sums (fun j => wideMul (Elem.limb a j) (Elem.limb b (i - j)))
    (fun j => wideMul (Elem.limb a j) (Elem.limb b (i + 8 - j))) i hi
    (fun j => toNat_wideMul_le (lc j) (ld _)) (fun j => toNat_wideMul_le (lc j) (ld _))
  have r1 := toNat_two_sums (fun j => wideMul (crossSum a j) (crossSum b (i - j)))
    (fun j => wideMul (crossSum a j) (crossSum2 b (i + 4 - j))) i hi
    (fun j => toNat_wideMul_le (ca j) (cb _)) (fun j => toNat_wideMul_le (ca j) (cc _))
  have r0 := toNat_two_sums (fun j => wideMul (Elem.limb a (j + 4)) (Elem.limb b (i - j + 4)))
    (fun j => wideMul (Elem.limb a (j + 4)) (crossSum b (i + 4 - j))) i hi
    (fun j => toNat_wideMul_le (lc _) (ld _)) (fun j => toNat_wideMul_le (lc _) (cb _))
  simp only [toNat_wideMul] at r0 r1 r2
  simp only [toNat_crossSum ha, toNat_crossSum hb, toNat_crossSum2 hb] at r0 r1
  exact ⟨⟨r2.1, r2.1 ▸ r2.2⟩, ⟨r1.1, r1.1 ▸ r1.2⟩, ⟨r0.1, r0.1 ▸ r0.2⟩⟩

/-- `MULCOEF` of weakly reduced operands is the reduced schoolbook vector (R122). -/
theorem mulCoef_of_WR {a b : Elem} (ha : WR a) (hb : WR b) :
    mulCoef a b = (List.range 8).map (reducedCoefficient a b) := by
  have key : ∀ i, i < 4 → (accum0 a b i + accum2 a b i).toNat = reducedCoefficient a b i ∧
      (accum1 a b i - accum2 a b i).toNat = reducedCoefficient a b (i + 4) := by
    intro i hi
    obtain ⟨⟨e2, b2⟩, ⟨e1, b1⟩, ⟨e0, b0⟩⟩ := accums_of_WR ha hb hi
    have h0 : (accum0 a b i + accum2 a b i).toNat = (accum0 a b i).toNat + (accum2 a b i).toNat := by
      rw [BitVec.toNat_add]
      norm_num only at *
      omega
    have h1 : (accum2 a b i).toNat ≤ (accum1 a b i).toNat →
        (accum1 a b i - accum2 a b i).toNat = (accum1 a b i).toNat - (accum2 a b i).toNat := by
      intro hle
      rw [BitVec.toNat_sub]
      norm_num only at *
      omega
    rw [h0]
    have hs : (accum1 a b i).toNat = reducedCoefficient a b (i + 4) + (accum2 a b i).toNat := by
      rw [e1, e2]
      interval_cases i <;>
        simp [degreeLow, degreeHigh, reducedCoefficient, schoolbook, List.range, List.range.loop] <;>
        ring
    refine ⟨?_, by rw [h1 (by omega), hs]; omega⟩
    rw [e0, e2]
    interval_cases i <;>
      simp [degreeLow, degreeHigh, reducedCoefficient, schoolbook, List.range, List.range.loop] <;>
      ring
  simp only [mulCoef, List.range, List.range.loop, List.map_cons, List.map_nil, List.cons_append, List.nil_append]
  simp only [(key 0 (by norm_num)).1, (key 1 (by norm_num)).1, (key 2 (by norm_num)).1, (key 3 (by norm_num)).1,
    (key 0 (by norm_num)).2, (key 1 (by norm_num)).2, (key 2 (by norm_num)).2, (key 3 (by norm_num)).2]

/-! ## Residues -/

/-- The product of two polynomials of degree 7 in `x`, reduced by `x^8 = x^4 + 1 + p` (R122). -/
theorem reduced_identity (x a0 a1 a2 a3 a4 a5 a6 a7 b0 b1 b2 b3 b4 b5 b6 b7 p : Nat) (hp : x ^ 8 = p + x ^ 4 + 1) :
    ∃ q : Nat,
      (a0 + x * (a1 + x * (a2 + x * (a3 + x * (a4 + x * (a5 + x * (a6 + x * (a7)))))))) *
          (b0 + x * (b1 + x * (b2 + x * (b3 + x * (b4 + x * (b5 + x * (b6 + x * (b7)))))))) =
        ((a0 * b0) + (a1 * b7 + a2 * b6 + a3 * b5 + a4 * b4 + a5 * b3 + a6 * b2 + a7 * b1) + (a5 * b7 + a6 * b6
        + a7 * b5)) + x * (((a0 * b1 + a1 * b0) + (a2 * b7 + a3 * b6 + a4 * b5 + a5 * b4 + a6 * b3 + a7 * b2) +
        (a6 * b7 + a7 * b6)) + x * (((a0 * b2 + a1 * b1 + a2 * b0) + (a3 * b7 + a4 * b6 + a5 * b5 + a6 * b4 + a7
        * b3) + (a7 * b7)) + x * (((a0 * b3 + a1 * b2 + a2 * b1 + a3 * b0) + (a4 * b7 + a5 * b6 + a6 * b5 + a7 *
        b4)) + x * (((a0 * b4 + a1 * b3 + a2 * b2 + a3 * b1 + a4 * b0) + (a1 * b7 + a2 * b6 + a3 * b5 + a4 * b4
        + a5 * b3 + a6 * b2 + a7 * b1) + 2 * (a5 * b7 + a6 * b6 + a7 * b5)) + x * (((a0 * b5 + a1 * b4 + a2 * b3
        + a3 * b2 + a4 * b1 + a5 * b0) + (a2 * b7 + a3 * b6 + a4 * b5 + a5 * b4 + a6 * b3 + a7 * b2) + 2 * (a6 *
        b7 + a7 * b6)) + x * (((a0 * b6 + a1 * b5 + a2 * b4 + a3 * b3 + a4 * b2 + a5 * b1 + a6 * b0) + (a3 * b7
        + a4 * b6 + a5 * b5 + a6 * b4 + a7 * b3) + 2 * (a7 * b7)) + x * (((a0 * b7 + a1 * b6 + a2 * b5 + a3 * b4
        + a4 * b3 + a5 * b2 + a6 * b1 + a7 * b0) + (a4 * b7 + a5 * b6 + a6 * b5 + a7 * b4))))))))) + p * q := by
  refine ⟨x ^ 0 * (a1 * b7 + a2 * b6 + a3 * b5 + a4 * b4 + a5 * b3 + a6 * b2 + a7 * b1) + x ^ 1 * (a2 * b7 + a3 * b6 +
    a4 * b5 + a5 * b4 + a6 * b3 + a7 * b2) + x ^ 2 * (a3 * b7 + a4 * b6 + a5 * b5 + a6 * b4 + a7 * b3) + x ^ 3 *
    (a4 * b7 + a5 * b6 + a6 * b5 + a7 * b4) + x ^ 4 * (a5 * b7 + a6 * b6 + a7 * b5) + x ^ 5 * (a6 * b7 + a7 *
    b6) + x ^ 6 * (a7 * b7) + x ^ 0 * (a5 * b7 + a6 * b6 + a7 * b5) + x ^ 1 * (a6 * b7 + a7 * b6) + x ^ 2 * (a7
    * b7), ?_⟩
  linear_combination (x ^ 0 * (a1 * b7 + a2 * b6 + a3 * b5 + a4 * b4 + a5 * b3 + a6 * b2 + a7 * b1) + x ^ 1 * (a2 * b7 + a3 * b6 +
    a4 * b5 + a5 * b4 + a6 * b3 + a7 * b2) + x ^ 2 * (a3 * b7 + a4 * b6 + a5 * b5 + a6 * b4 + a7 * b3) + x ^ 3 *
    (a4 * b7 + a5 * b6 + a6 * b5 + a7 * b4) + x ^ 4 * (a5 * b7 + a6 * b6 + a7 * b5) + x ^ 5 * (a6 * b7 + a7 *
    b6) + x ^ 6 * (a7 * b7) + x ^ 0 * (a5 * b7 + a6 * b6 + a7 * b5) + x ^ 1 * (a6 * b7 + a7 * b6) + x ^ 2 * (a7
    * b7)) * hp

theorem radix_pow : (2 ^ 56) ^ 8 = modulus + (2 ^ 56) ^ 4 + 1 := by decide +kernel

theorem val_of_limbs (a : Elem) : a.val = (Elem.limb a 0).toNat + 2 ^ 56 * ((Elem.limb a 1).toNat +
    2 ^ 56 * ((Elem.limb a 2).toNat + 2 ^ 56 * ((Elem.limb a 3).toNat + 2 ^ 56 * ((Elem.limb a 4).toNat +
    2 ^ 56 * ((Elem.limb a 5).toNat + 2 ^ 56 * ((Elem.limb a 6).toNat + 2 ^ 56 * (Elem.limb a 7).toNat)))))) := by
  obtain ⟨x0, x1, x2, x3, x4, x5, x6, x7, e⟩ := eq_eight a.length_nats
  have e' : a.val = valNats [x0, x1, x2, x3, x4, x5, x6, x7] := congrArg valNats e
  rw [e']
  simp only [Elem.limb_toNat_eq, e, valNats_cons, valNats_nil, List.getD_cons_zero, List.getD_cons_succ, Nat.mul_zero,
    Nat.add_zero]

/-- The reduced coefficients, written out. -/
theorem valNats_reduced (a b : Elem) : valNats ((List.range 8).map (reducedCoefficient a b)) =
    (((Elem.limb a 0).toNat * (Elem.limb b 0).toNat) + ((Elem.limb a 1).toNat * (Elem.limb b 7).toNat +
    (Elem.limb a 2).toNat * (Elem.limb b 6).toNat + (Elem.limb a 3).toNat * (Elem.limb b 5).toNat + (Elem.limb a
    4).toNat * (Elem.limb b 4).toNat + (Elem.limb a 5).toNat * (Elem.limb b 3).toNat + (Elem.limb a 6).toNat *
    (Elem.limb b 2).toNat + (Elem.limb a 7).toNat * (Elem.limb b 1).toNat) + ((Elem.limb a 5).toNat * (Elem.limb
    b 7).toNat + (Elem.limb a 6).toNat * (Elem.limb b 6).toNat + (Elem.limb a 7).toNat * (Elem.limb b 5).toNat))
    + 2 ^ 56 * ((((Elem.limb a 0).toNat * (Elem.limb b 1).toNat + (Elem.limb a 1).toNat * (Elem.limb b 0).toNat)
    + ((Elem.limb a 2).toNat * (Elem.limb b 7).toNat + (Elem.limb a 3).toNat * (Elem.limb b 6).toNat +
    (Elem.limb a 4).toNat * (Elem.limb b 5).toNat + (Elem.limb a 5).toNat * (Elem.limb b 4).toNat + (Elem.limb a
    6).toNat * (Elem.limb b 3).toNat + (Elem.limb a 7).toNat * (Elem.limb b 2).toNat) + ((Elem.limb a 6).toNat *
    (Elem.limb b 7).toNat + (Elem.limb a 7).toNat * (Elem.limb b 6).toNat)) + 2 ^ 56 * ((((Elem.limb a 0).toNat
    * (Elem.limb b 2).toNat + (Elem.limb a 1).toNat * (Elem.limb b 1).toNat + (Elem.limb a 2).toNat * (Elem.limb
    b 0).toNat) + ((Elem.limb a 3).toNat * (Elem.limb b 7).toNat + (Elem.limb a 4).toNat * (Elem.limb b 6).toNat
    + (Elem.limb a 5).toNat * (Elem.limb b 5).toNat + (Elem.limb a 6).toNat * (Elem.limb b 4).toNat + (Elem.limb
    a 7).toNat * (Elem.limb b 3).toNat) + ((Elem.limb a 7).toNat * (Elem.limb b 7).toNat)) + 2 ^ 56 *
    ((((Elem.limb a 0).toNat * (Elem.limb b 3).toNat + (Elem.limb a 1).toNat * (Elem.limb b 2).toNat +
    (Elem.limb a 2).toNat * (Elem.limb b 1).toNat + (Elem.limb a 3).toNat * (Elem.limb b 0).toNat) + ((Elem.limb
    a 4).toNat * (Elem.limb b 7).toNat + (Elem.limb a 5).toNat * (Elem.limb b 6).toNat + (Elem.limb a 6).toNat *
    (Elem.limb b 5).toNat + (Elem.limb a 7).toNat * (Elem.limb b 4).toNat)) + 2 ^ 56 * ((((Elem.limb a 0).toNat
    * (Elem.limb b 4).toNat + (Elem.limb a 1).toNat * (Elem.limb b 3).toNat + (Elem.limb a 2).toNat * (Elem.limb
    b 2).toNat + (Elem.limb a 3).toNat * (Elem.limb b 1).toNat + (Elem.limb a 4).toNat * (Elem.limb b 0).toNat)
    + ((Elem.limb a 1).toNat * (Elem.limb b 7).toNat + (Elem.limb a 2).toNat * (Elem.limb b 6).toNat +
    (Elem.limb a 3).toNat * (Elem.limb b 5).toNat + (Elem.limb a 4).toNat * (Elem.limb b 4).toNat + (Elem.limb a
    5).toNat * (Elem.limb b 3).toNat + (Elem.limb a 6).toNat * (Elem.limb b 2).toNat + (Elem.limb a 7).toNat *
    (Elem.limb b 1).toNat) + 2 * ((Elem.limb a 5).toNat * (Elem.limb b 7).toNat + (Elem.limb a 6).toNat *
    (Elem.limb b 6).toNat + (Elem.limb a 7).toNat * (Elem.limb b 5).toNat)) + 2 ^ 56 * ((((Elem.limb a 0).toNat
    * (Elem.limb b 5).toNat + (Elem.limb a 1).toNat * (Elem.limb b 4).toNat + (Elem.limb a 2).toNat * (Elem.limb
    b 3).toNat + (Elem.limb a 3).toNat * (Elem.limb b 2).toNat + (Elem.limb a 4).toNat * (Elem.limb b 1).toNat +
    (Elem.limb a 5).toNat * (Elem.limb b 0).toNat) + ((Elem.limb a 2).toNat * (Elem.limb b 7).toNat + (Elem.limb
    a 3).toNat * (Elem.limb b 6).toNat + (Elem.limb a 4).toNat * (Elem.limb b 5).toNat + (Elem.limb a 5).toNat *
    (Elem.limb b 4).toNat + (Elem.limb a 6).toNat * (Elem.limb b 3).toNat + (Elem.limb a 7).toNat * (Elem.limb b
    2).toNat) + 2 * ((Elem.limb a 6).toNat * (Elem.limb b 7).toNat + (Elem.limb a 7).toNat * (Elem.limb b
    6).toNat)) + 2 ^ 56 * ((((Elem.limb a 0).toNat * (Elem.limb b 6).toNat + (Elem.limb a 1).toNat * (Elem.limb
    b 5).toNat + (Elem.limb a 2).toNat * (Elem.limb b 4).toNat + (Elem.limb a 3).toNat * (Elem.limb b 3).toNat +
    (Elem.limb a 4).toNat * (Elem.limb b 2).toNat + (Elem.limb a 5).toNat * (Elem.limb b 1).toNat + (Elem.limb a
    6).toNat * (Elem.limb b 0).toNat) + ((Elem.limb a 3).toNat * (Elem.limb b 7).toNat + (Elem.limb a 4).toNat *
    (Elem.limb b 6).toNat + (Elem.limb a 5).toNat * (Elem.limb b 5).toNat + (Elem.limb a 6).toNat * (Elem.limb b
    4).toNat + (Elem.limb a 7).toNat * (Elem.limb b 3).toNat) + 2 * ((Elem.limb a 7).toNat * (Elem.limb b
    7).toNat)) + 2 ^ 56 * ((((Elem.limb a 0).toNat * (Elem.limb b 7).toNat + (Elem.limb a 1).toNat * (Elem.limb
    b 6).toNat + (Elem.limb a 2).toNat * (Elem.limb b 5).toNat + (Elem.limb a 3).toNat * (Elem.limb b 4).toNat +
    (Elem.limb a 4).toNat * (Elem.limb b 3).toNat + (Elem.limb a 5).toNat * (Elem.limb b 2).toNat + (Elem.limb a
    6).toNat * (Elem.limb b 1).toNat + (Elem.limb a 7).toNat * (Elem.limb b 0).toNat) + ((Elem.limb a 4).toNat *
    (Elem.limb b 7).toNat + (Elem.limb a 5).toNat * (Elem.limb b 6).toNat + (Elem.limb a 6).toNat * (Elem.limb b
    5).toNat + (Elem.limb a 7).toNat * (Elem.limb b 4).toNat))))))))) := by
  have c0 : reducedCoefficient a b 0 = ((Elem.limb a 0).toNat * (Elem.limb b 0).toNat) + ((Elem.limb a 1).toNat * (Elem.limb b 7).toNat +
      (Elem.limb a 2).toNat * (Elem.limb b 6).toNat + (Elem.limb a 3).toNat * (Elem.limb b 5).toNat + (Elem.limb
      a 4).toNat * (Elem.limb b 4).toNat + (Elem.limb a 5).toNat * (Elem.limb b 3).toNat + (Elem.limb a 6).toNat
      * (Elem.limb b 2).toNat + (Elem.limb a 7).toNat * (Elem.limb b 1).toNat) + ((Elem.limb a 5).toNat *
      (Elem.limb b 7).toNat + (Elem.limb a 6).toNat * (Elem.limb b 6).toNat + (Elem.limb a 7).toNat * (Elem.limb
      b 5).toNat) := by
    simp [reducedCoefficient, schoolbook, List.range, List.range.loop, Nat.add_assoc]
  have c1 : reducedCoefficient a b 1 = ((Elem.limb a 0).toNat * (Elem.limb b 1).toNat + (Elem.limb a 1).toNat * (Elem.limb b 0).toNat) +
      ((Elem.limb a 2).toNat * (Elem.limb b 7).toNat + (Elem.limb a 3).toNat * (Elem.limb b 6).toNat +
      (Elem.limb a 4).toNat * (Elem.limb b 5).toNat + (Elem.limb a 5).toNat * (Elem.limb b 4).toNat + (Elem.limb
      a 6).toNat * (Elem.limb b 3).toNat + (Elem.limb a 7).toNat * (Elem.limb b 2).toNat) + ((Elem.limb a
      6).toNat * (Elem.limb b 7).toNat + (Elem.limb a 7).toNat * (Elem.limb b 6).toNat) := by
    simp [reducedCoefficient, schoolbook, List.range, List.range.loop, Nat.add_assoc]
  have c2 : reducedCoefficient a b 2 = ((Elem.limb a 0).toNat * (Elem.limb b 2).toNat + (Elem.limb a 1).toNat * (Elem.limb b 1).toNat +
      (Elem.limb a 2).toNat * (Elem.limb b 0).toNat) + ((Elem.limb a 3).toNat * (Elem.limb b 7).toNat +
      (Elem.limb a 4).toNat * (Elem.limb b 6).toNat + (Elem.limb a 5).toNat * (Elem.limb b 5).toNat + (Elem.limb
      a 6).toNat * (Elem.limb b 4).toNat + (Elem.limb a 7).toNat * (Elem.limb b 3).toNat) + ((Elem.limb a
      7).toNat * (Elem.limb b 7).toNat) := by
    simp [reducedCoefficient, schoolbook, List.range, List.range.loop, Nat.add_assoc]
  have c3 : reducedCoefficient a b 3 = ((Elem.limb a 0).toNat * (Elem.limb b 3).toNat + (Elem.limb a 1).toNat * (Elem.limb b 2).toNat +
      (Elem.limb a 2).toNat * (Elem.limb b 1).toNat + (Elem.limb a 3).toNat * (Elem.limb b 0).toNat) +
      ((Elem.limb a 4).toNat * (Elem.limb b 7).toNat + (Elem.limb a 5).toNat * (Elem.limb b 6).toNat +
      (Elem.limb a 6).toNat * (Elem.limb b 5).toNat + (Elem.limb a 7).toNat * (Elem.limb b 4).toNat) := by
    simp [reducedCoefficient, schoolbook, List.range, List.range.loop, Nat.add_assoc]
  have c4 : reducedCoefficient a b 4 = ((Elem.limb a 0).toNat * (Elem.limb b 4).toNat + (Elem.limb a 1).toNat * (Elem.limb b 3).toNat +
      (Elem.limb a 2).toNat * (Elem.limb b 2).toNat + (Elem.limb a 3).toNat * (Elem.limb b 1).toNat + (Elem.limb
      a 4).toNat * (Elem.limb b 0).toNat) + ((Elem.limb a 1).toNat * (Elem.limb b 7).toNat + (Elem.limb a
      2).toNat * (Elem.limb b 6).toNat + (Elem.limb a 3).toNat * (Elem.limb b 5).toNat + (Elem.limb a 4).toNat *
      (Elem.limb b 4).toNat + (Elem.limb a 5).toNat * (Elem.limb b 3).toNat + (Elem.limb a 6).toNat * (Elem.limb
      b 2).toNat + (Elem.limb a 7).toNat * (Elem.limb b 1).toNat) + 2 * ((Elem.limb a 5).toNat * (Elem.limb b
      7).toNat + (Elem.limb a 6).toNat * (Elem.limb b 6).toNat + (Elem.limb a 7).toNat * (Elem.limb b 5).toNat) := by
    simp [reducedCoefficient, schoolbook, List.range, List.range.loop, Nat.add_assoc]
  have c5 : reducedCoefficient a b 5 = ((Elem.limb a 0).toNat * (Elem.limb b 5).toNat + (Elem.limb a 1).toNat * (Elem.limb b 4).toNat +
      (Elem.limb a 2).toNat * (Elem.limb b 3).toNat + (Elem.limb a 3).toNat * (Elem.limb b 2).toNat + (Elem.limb
      a 4).toNat * (Elem.limb b 1).toNat + (Elem.limb a 5).toNat * (Elem.limb b 0).toNat) + ((Elem.limb a
      2).toNat * (Elem.limb b 7).toNat + (Elem.limb a 3).toNat * (Elem.limb b 6).toNat + (Elem.limb a 4).toNat *
      (Elem.limb b 5).toNat + (Elem.limb a 5).toNat * (Elem.limb b 4).toNat + (Elem.limb a 6).toNat * (Elem.limb
      b 3).toNat + (Elem.limb a 7).toNat * (Elem.limb b 2).toNat) + 2 * ((Elem.limb a 6).toNat * (Elem.limb b
      7).toNat + (Elem.limb a 7).toNat * (Elem.limb b 6).toNat) := by
    simp [reducedCoefficient, schoolbook, List.range, List.range.loop, Nat.add_assoc]
  have c6 : reducedCoefficient a b 6 = ((Elem.limb a 0).toNat * (Elem.limb b 6).toNat + (Elem.limb a 1).toNat * (Elem.limb b 5).toNat +
      (Elem.limb a 2).toNat * (Elem.limb b 4).toNat + (Elem.limb a 3).toNat * (Elem.limb b 3).toNat + (Elem.limb
      a 4).toNat * (Elem.limb b 2).toNat + (Elem.limb a 5).toNat * (Elem.limb b 1).toNat + (Elem.limb a 6).toNat
      * (Elem.limb b 0).toNat) + ((Elem.limb a 3).toNat * (Elem.limb b 7).toNat + (Elem.limb a 4).toNat *
      (Elem.limb b 6).toNat + (Elem.limb a 5).toNat * (Elem.limb b 5).toNat + (Elem.limb a 6).toNat * (Elem.limb
      b 4).toNat + (Elem.limb a 7).toNat * (Elem.limb b 3).toNat) + 2 * ((Elem.limb a 7).toNat * (Elem.limb b
      7).toNat) := by
    simp [reducedCoefficient, schoolbook, List.range, List.range.loop, Nat.add_assoc]
  have c7 : reducedCoefficient a b 7 = ((Elem.limb a 0).toNat * (Elem.limb b 7).toNat + (Elem.limb a 1).toNat * (Elem.limb b 6).toNat +
      (Elem.limb a 2).toNat * (Elem.limb b 5).toNat + (Elem.limb a 3).toNat * (Elem.limb b 4).toNat + (Elem.limb
      a 4).toNat * (Elem.limb b 3).toNat + (Elem.limb a 5).toNat * (Elem.limb b 2).toNat + (Elem.limb a 6).toNat
      * (Elem.limb b 1).toNat + (Elem.limb a 7).toNat * (Elem.limb b 0).toNat) + ((Elem.limb a 4).toNat *
      (Elem.limb b 7).toNat + (Elem.limb a 5).toNat * (Elem.limb b 6).toNat + (Elem.limb a 6).toNat * (Elem.limb
      b 5).toNat + (Elem.limb a 7).toNat * (Elem.limb b 4).toNat) := by
    simp [reducedCoefficient, schoolbook, List.range, List.range.loop, Nat.add_assoc]
  simp only [List.range, List.range.loop, List.map_cons, List.map_nil, valNats_cons, valNats_nil, c0, c1, c2, c3, c4, c5,
    c6, c7, Nat.mul_zero, Nat.add_zero]

/-- The reduced coefficients represent the product (R122). -/
theorem reducedCoefficient_mod (a b : Elem) :
    valNats ((List.range 8).map (reducedCoefficient a b)) % modulus = a.val * b.val % modulus := by
  obtain ⟨q, hq⟩ := reduced_identity (2 ^ 56) (Elem.limb a 0).toNat (Elem.limb a 1).toNat (Elem.limb a 2).toNat
    (Elem.limb a 3).toNat (Elem.limb a 4).toNat (Elem.limb a 5).toNat (Elem.limb a 6).toNat (Elem.limb a 7).toNat
    (Elem.limb b 0).toNat (Elem.limb b 1).toNat (Elem.limb b 2).toNat (Elem.limb b 3).toNat (Elem.limb b 4).toNat
    (Elem.limb b 5).toNat (Elem.limb b 6).toNat (Elem.limb b 7).toNat modulus radix_pow
  rw [val_of_limbs a, val_of_limbs b, hq, Nat.add_mul_mod_self_left, valNats_reduced]

/-- The MUL datapath on weakly reduced operands computes the product of the residues (R123). -/
theorem residue_mulElem {a b : Elem} (ha : WR a) (hb : WR b) :
    residue (mulElem a b) = residue a * residue b % modulus := by
  rw [mulElem, (rippleFoldTwice_spec (length_mulCoef a b) (mulCoef_lt a b)).2, mulCoef_of_WR ha hb,
    reducedCoefficient_mod]
  exact Nat.mul_mod _ _ _

theorem residue_sqrElem {a : Elem} (ha : WR a) : residue (sqrElem a) = residue a ^ 2 % modulus := by
  rw [sqrElem_eq, residue_mulElem ha ha, sq]

/-- The limbs of a product of weakly reduced operands (R122, R123). -/
theorem mulElem_of_WR {a b : Elem} (ha : WR a) (hb : WR b) :
    mulElem a b = foldedDigits (valNats (foldedNats (valNats ((List.range 8).map (reducedCoefficient a b))))) := by
  rw [mulElem, rippleFoldTwice_eq (length_mulCoef a b), mulCoef_of_WR ha hb]

/-- `n`-fold squaring of a weakly reduced element (R125). -/
theorem sqrnElem_spec (n : Nat) {a : Elem} (ha : WR a) :
    WR (sqrnElem n a) ∧ residue (sqrnElem n a) = residue a ^ 2 ^ n % modulus := by
  induction n generalizing a with
  | zero =>
    refine ⟨ha, ?_⟩
    rw [sqrnElem, Nat.pow_zero, Nat.pow_one]
    exact (Nat.mod_eq_of_lt (residue_lt a)).symm
  | succ n ih =>
    obtain ⟨h1, h2⟩ := ih (WR_sqrElem a)
    refine ⟨h1, ?_⟩
    rw [sqrnElem, h2, residue_sqrElem ha, ← Nat.pow_mod, ← Nat.pow_mul, Nat.pow_succ, Nat.mul_comm 2]

theorem WR_sqrnElem {n : Nat} (hn : n ≠ 0) (a : Elem) : WR (sqrnElem n a) := by
  obtain ⟨m, rfl⟩ := Nat.exists_eq_succ_of_ne_zero hn
  clear hn
  induction m generalizing a with
  | zero => exact WR_sqrElem a
  | succ m ih => exact ih (sqrElem a)

theorem valNats_map_mul (w : Nat) (l : List Nat) : valNats (l.map (w * ·)) = w * valNats l := by
  induction l with
  | nil => simp
  | cons x l ih => simp only [List.map_cons, valNats_cons, ih]; ring

/-- The MULW datapath is exact for any 64-bit limbs (R126). -/
theorem mulwElem_spec (a : Elem) (w : BitVec 32) :
    WR (mulwElem a w) ∧ residue (mulwElem a w) = w.toNat * residue a % modulus := by
  have hl : (a.nats.map (w.toNat * ·)).length = 8 := by simp
  have hb : ∀ x ∈ a.nats.map (w.toNat * ·), x < 2 ^ 128 := by
    intro x hx
    obtain ⟨y, hy, rfl⟩ := List.mem_map.1 hx
    calc w.toNat * y < 2 ^ 32 * 2 ^ 64 := Nat.mul_lt_mul'' w.isLt (a.nats_lt y hy)
      _ < 2 ^ 128 := by norm_num
  obtain ⟨h1, h2⟩ := rippleFoldTwice_spec hl hb
  refine ⟨h1, ?_⟩
  rw [mulwElem, h2, valNats_map_mul, residue, Nat.mul_mod_mod]
  rfl

/-- The limbs of a small-scalar product (R126). -/
theorem mulwElem_eq (a : Elem) (w : BitVec 32) :
    mulwElem a w = foldedDigits (valNats (foldedNats (w.toNat * a.val))) := by
  rw [mulwElem, rippleFoldTwice_eq (by simp), valNats_map_mul]
  rfl

end Sys2Proof.Machine
end

