-- ==== Sys2Proof/Laws/Isr.lean ====
section
/-! SUPPORT. The exponents of the ISR chain (spec 43_isr.md R141). -/

set_option Elab.async false

namespace Sys2Proof.Machine

/-- `y` is weakly reduced and holds `x^e` (R141, the column "exponent"). -/
structure HoldsPower (x : Elem) (e : Nat) (y : Elem) : Prop where
  wr : WR y
  power : residue y = residue x ^ e % modulus

theorem HoldsPower.self {x : Elem} (h : WR x) : HoldsPower x 1 x :=
  ⟨h, by rw [Nat.pow_one]; exact (Nat.mod_eq_of_lt (residue_lt x)).symm⟩

theorem HoldsPower.mul {x y z : Elem} {e f : Nat} (hy : HoldsPower x e y) (hz : HoldsPower x f z) :
    HoldsPower x (e + f) (mulElem y z) :=
  ⟨WR_mulElem y z, by rw [residue_mulElem hy.wr hz.wr, hy.power, hz.power, ← Nat.mul_mod, ← Nat.pow_add]⟩

theorem HoldsPower.sqrn {x y : Elem} {e : Nat} (n : Nat) (hy : HoldsPower x e y) :
    HoldsPower x (e * 2 ^ n) (sqrnElem n y) :=
  ⟨(sqrnElem_spec n hy.wr).1, by rw [(sqrnElem_spec n hy.wr).2, hy.power, ← Nat.pow_mod, ← Nat.pow_mul]⟩

theorem HoldsPower.sqr {x y : Elem} {e : Nat} (hy : HoldsPower x e y) : HoldsPower x (e * 2 ^ 1) (sqrElem y) :=
  hy.sqrn 1

theorem HoldsPower.cast {x y : Elem} {e f : Nat} (hy : HoldsPower x e y) (h : e = f) : HoldsPower x f y := h ▸ hy

theorem isrSteps1to8_spec {x : Elem} (h : WR x) : HoldsPower x (2 ^ 9 - 1) (isrSteps1to8 x) := by
  have hx := HoldsPower.self h
  have h2 := hx.mul hx.sqr
  have h4 := hx.mul h2.sqr
  have h6 := h4.mul (h4.sqrn 3)
  exact (h4.mul (h6.sqrn 3)).cast (by decide +kernel)

theorem isrSteps9to14_spec {x l0 : Elem} (h : WR x) (h8 : HoldsPower x (2 ^ 9 - 1) l0) :
    HoldsPower x (2 ^ 37 - 1) (isrSteps9to14 x l0) := by
  have hx := HoldsPower.self h
  have h10 := h8.mul (h8.sqrn 9)
  have h12 := hx.mul h10.sqr
  exact (h10.mul (h12.sqrn 18)).cast (by decide +kernel)

theorem isrSteps15to20_spec {x l2 : Elem} (h14 : HoldsPower x (2 ^ 37 - 1) l2) :
    HoldsPower x (2 ^ 222 - 1) (isrSteps15to20 l2) := by
  have h16 := h14.mul (h14.sqrn 37)
  have h18 := h14.mul (h16.sqrn 37)
  exact (h18.mul (h18.sqrn 111)).cast (by decide +kernel)

theorem isrSteps21to24_spec {x l2 : Elem} (h : WR x) (h20 : HoldsPower x (2 ^ 222 - 1) l2) :
    HoldsPower x isrExponent (isrSteps21to24 x l2) := by
  have hx := HoldsPower.self h
  have h22 := hx.mul h20.sqr
  exact (h20.mul (h22.sqrn 223)).cast (by decide +kernel)

/-- The candidate holds `x^((p−3)/4)` (R142). -/
theorem isrCandidate_spec {x : Elem} (h : WR x) : HoldsPower x isrExponent (isrCandidate x) :=
  isrSteps21to24_spec h (isrSteps15to20_spec (isrSteps9to14_spec h (isrSteps1to8_spec h)))

/-- The check holds `x^((p−1)/2)` (R142). -/
theorem isrCheck_spec {x : Elem} (h : WR x) : HoldsPower x halfModulus (isrCheck x (isrCandidate x)) :=
  ((isrCandidate_spec h).sqr.mul (HoldsPower.self h)).cast (by decide +kernel)

/-- The candidate is a product, so it is weakly reduced for any operand (R142). -/
theorem WR_isrCandidate (x : Elem) : WR (isrCandidate x) := WR_mulElem _ _

theorem WR_one : WR one := by decide +kernel

theorem residue_one : residue one = 1 := by decide +kernel

theorem WR_isrCheck (x y : Elem) : WR (isrCheck x y) := WR_mulElem _ _

/-- The mask of ISR on a weakly reduced operand is Euler's criterion (R142). -/
theorem eqV_isrCheck {x : Elem} (h : WR x) :
    eqV (isrCheck x (isrCandidate x)) one = .ok (maskOf (residue x ^ halfModulus % modulus == 1)) := by
  rw [eqV_of_WR (WR_isrCheck _ _) WR_one, (isrCheck_spec h).power, residue_one]

end Sys2Proof.Machine
end

