-- ==== Sys2Proof/Laws/State.lean ====
section
/-! SUPPORT. One lemma per field of State per update, and the registers of an updated state. -/

set_option Elab.async false

namespace Sys2Proof.Machine

/-! ## `State.writeReg` -/

@[simp] theorem State.writeReg_f (s : State) (r : Reg) (v : Elem) : (s.writeReg r v).f = s.f.set r.val v := rfl
@[simp] theorem State.writeReg_b (s : State) (r : Reg) (v : Elem) : (s.writeReg r v).b = s.b := rfl
@[simp] theorem State.writeReg_mask (s : State) (r : Reg) (v : Elem) : (s.writeReg r v).mask = s.mask := rfl
@[simp] theorem State.writeReg_status (s : State) (r : Reg) (v : Elem) : (s.writeReg r v).status = s.status := rfl
@[simp] theorem State.writeReg_cmd (s : State) (r : Reg) (v : Elem) : (s.writeReg r v).cmd = s.cmd := rfl
@[simp] theorem State.writeReg_left (s : State) (r : Reg) (v : Elem) : (s.writeReg r v).left = s.left := rfl
@[simp] theorem State.writeReg_host (s : State) (r : Reg) (v : Elem) : (s.writeReg r v).host = s.host := rfl
@[simp] theorem State.writeReg_reply (s : State) (r : Reg) (v : Elem) : (s.writeReg r v).reply = s.reply := rfl

/-! ## `State.writeMask` -/

@[simp] theorem State.writeMask_f (s : State) (m : Word) : (s.writeMask m).f = s.f := rfl
@[simp] theorem State.writeMask_b (s : State) (m : Word) : (s.writeMask m).b = s.b := rfl
@[simp] theorem State.writeMask_mask (s : State) (m : Word) : (s.writeMask m).mask = m := rfl
@[simp] theorem State.writeMask_status (s : State) (m : Word) : (s.writeMask m).status = s.status := rfl
@[simp] theorem State.writeMask_cmd (s : State) (m : Word) : (s.writeMask m).cmd = s.cmd := rfl
@[simp] theorem State.writeMask_left (s : State) (m : Word) : (s.writeMask m).left = s.left := rfl
@[simp] theorem State.writeMask_host (s : State) (m : Word) : (s.writeMask m).host = s.host := rfl
@[simp] theorem State.writeMask_reply (s : State) (m : Word) : (s.writeMask m).reply = s.reply := rfl

/-! ## `State.writeB` -/

@[simp] theorem State.writeB_f (s : State) (m : Memory) : (s.writeB m).f = s.f := rfl
@[simp] theorem State.writeB_b (s : State) (m : Memory) : (s.writeB m).b = m := rfl
@[simp] theorem State.writeB_mask (s : State) (m : Memory) : (s.writeB m).mask = s.mask := rfl
@[simp] theorem State.writeB_status (s : State) (m : Memory) : (s.writeB m).status = s.status := rfl
@[simp] theorem State.writeB_cmd (s : State) (m : Memory) : (s.writeB m).cmd = s.cmd := rfl
@[simp] theorem State.writeB_left (s : State) (m : Memory) : (s.writeB m).left = s.left := rfl
@[simp] theorem State.writeB_host (s : State) (m : Memory) : (s.writeB m).host = s.host := rfl
@[simp] theorem State.writeB_reply (s : State) (m : Memory) : (s.writeB m).reply = s.reply := rfl

/-! ## `State.retire` -/

@[simp] theorem State.retire_f (s : State) : s.retire.f = s.f := rfl
@[simp] theorem State.retire_b (s : State) : s.retire.b = s.b := rfl
@[simp] theorem State.retire_mask (s : State) : s.retire.mask = s.mask := rfl
@[simp] theorem State.retire_status (s : State) : s.retire.status = { s.status with busy := false } := rfl
@[simp] theorem State.retire_cmd (s : State) : s.retire.cmd = 0 := rfl
@[simp] theorem State.retire_left (s : State) : s.retire.left = 0 := rfl
@[simp] theorem State.retire_host (s : State) : s.retire.host = s.host := rfl
@[simp] theorem State.retire_reply (s : State) : s.retire.reply = s.reply := rfl

/-! ## `State.enterFault` -/

@[simp] theorem State.enterFault_f (s : State) (c : FaultCause) : (s.enterFault c).f = s.f := rfl
@[simp] theorem State.enterFault_b (s : State) (c : FaultCause) : (s.enterFault c).b = s.b := rfl
@[simp] theorem State.enterFault_mask (s : State) (c : FaultCause) : (s.enterFault c).mask = s.mask := rfl
@[simp] theorem State.enterFault_status (s : State) (c : FaultCause) : (s.enterFault c).status = { busy := false, fault := true, fcause := c.code } := rfl
@[simp] theorem State.enterFault_cmd (s : State) (c : FaultCause) : (s.enterFault c).cmd = 0 := rfl
@[simp] theorem State.enterFault_left (s : State) (c : FaultCause) : (s.enterFault c).left = 0 := rfl
@[simp] theorem State.enterFault_host (s : State) (c : FaultCause) : (s.enterFault c).host = s.host := rfl
@[simp] theorem State.enterFault_reply (s : State) (c : FaultCause) : (s.enterFault c).reply = s.reply := rfl

/-! ## `State.served` -/

@[simp] theorem State.served_f (s : State) (rest : List HostOp) (r : Option Reply) : (s.served rest r).f = s.f := rfl
@[simp] theorem State.served_b (s : State) (rest : List HostOp) (r : Option Reply) : (s.served rest r).b = s.b := rfl
@[simp] theorem State.served_mask (s : State) (rest : List HostOp) (r : Option Reply) : (s.served rest r).mask = s.mask := rfl
@[simp] theorem State.served_status (s : State) (rest : List HostOp) (r : Option Reply) : (s.served rest r).status = s.status := rfl
@[simp] theorem State.served_cmd (s : State) (rest : List HostOp) (r : Option Reply) : (s.served rest r).cmd = s.cmd := rfl
@[simp] theorem State.served_left (s : State) (rest : List HostOp) (r : Option Reply) : (s.served rest r).left = s.left := rfl
@[simp] theorem State.served_host (s : State) (rest : List HostOp) (r : Option Reply) : (s.served rest r).host = rest := rfl
@[simp] theorem State.served_reply (s : State) (rest : List HostOp) (r : Option Reply) : (s.served rest r).reply = r := rfl

/-! ## `State.elapse` -/

@[simp] theorem State.elapse_f (s : State) : s.elapse.f = s.f := rfl
@[simp] theorem State.elapse_b (s : State) : s.elapse.b = s.b := rfl
@[simp] theorem State.elapse_mask (s : State) : s.elapse.mask = s.mask := rfl
@[simp] theorem State.elapse_status (s : State) : s.elapse.status = s.status := rfl
@[simp] theorem State.elapse_cmd (s : State) : s.elapse.cmd = s.cmd := rfl
@[simp] theorem State.elapse_left (s : State) : s.elapse.left = s.left - 1 := rfl
@[simp] theorem State.elapse_host (s : State) : s.elapse.host = s.host := rfl
@[simp] theorem State.elapse_reply (s : State) : s.elapse.reply = s.reply := rfl

/-! ## `State.applyReset` -/

@[simp] theorem State.applyReset_f (rest : List HostOp) : (State.applyReset rest).f = State.reset.f := rfl
@[simp] theorem State.applyReset_b (rest : List HostOp) : (State.applyReset rest).b = [] := rfl
@[simp] theorem State.applyReset_mask (rest : List HostOp) : (State.applyReset rest).mask = 0 := rfl
@[simp] theorem State.applyReset_status (rest : List HostOp) : (State.applyReset rest).status = { busy := false, fault := false, fcause := 0 } := rfl
@[simp] theorem State.applyReset_cmd (rest : List HostOp) : (State.applyReset rest).cmd = 0 := rfl
@[simp] theorem State.applyReset_left (rest : List HostOp) : (State.applyReset rest).left = 0 := rfl
@[simp] theorem State.applyReset_host (rest : List HostOp) : (State.applyReset rest).host = rest := rfl
@[simp] theorem State.applyReset_reply (rest : List HostOp) : (State.applyReset rest).reply = none := rfl

/-! ## Registers of an updated state -/

@[simp] theorem State.reg_writeReg_same (s : State) (r : Reg) (v : Elem) : (s.writeReg r v).reg r = v := by
  simp [State.reg, State.writeReg]

theorem State.reg_writeReg_ne (s : State) (r q : Reg) (v : Elem) (h : q ≠ r) :
    (s.writeReg r v).reg q = s.reg q := by
  have h' : r.val ≠ q.val := fun e => h (Fin.ext e.symm)
  simp [State.reg, State.writeReg, Vector.getElem_set_ne, h']

@[simp] theorem State.reg_writeMask (s : State) (m : Word) (q : Reg) : (s.writeMask m).reg q = s.reg q := rfl
@[simp] theorem State.reg_writeB (s : State) (m : Memory) (q : Reg) : (s.writeB m).reg q = s.reg q := rfl
@[simp] theorem State.reg_retire (s : State) (q : Reg) : s.retire.reg q = s.reg q := rfl
@[simp] theorem State.reg_enterFault (s : State) (c : FaultCause) (q : Reg) : (s.enterFault c).reg q = s.reg q := rfl
@[simp] theorem State.reg_served (s : State) (rest : List HostOp) (r : Option Reply) (q : Reg) : (s.served rest r).reg q = s.reg q := rfl
@[simp] theorem State.reg_elapse (s : State) (q : Reg) : s.elapse.reg q = s.reg q := rfl

@[simp] theorem State.reg_applyReset (rest : List HostOp) (q : Reg) :
    (State.applyReset rest).reg q = Vector.replicate 8 0 := by
  simp [State.reg, State.reset]

/-! ## Phases -/

@[simp] theorem State.phase_retire (s : State) :
    s.retire.phase = if s.status.fault then .faulted else .idle := by
  simp [State.phase]

@[simp] theorem State.phase_enterFault (s : State) (c : FaultCause) : (s.enterFault c).phase = .faulted := by
  simp [State.phase]

@[simp] theorem State.phase_served (s : State) (rest : List HostOp) (r : Option Reply) :
    (s.served rest r).phase = s.phase := rfl

@[simp] theorem State.phase_elapse (s : State) : s.elapse.phase = s.phase := rfl

theorem State.phase_eq_busy {s : State} : s.phase = .busy ↔ s.status.fault = false ∧ s.status.busy = true := by
  cases hf : s.status.fault <;> cases hb : s.status.busy <;> simp [State.phase, hf, hb]

theorem State.phase_eq_idle {s : State} : s.phase = .idle ↔ s.status.fault = false ∧ s.status.busy = false := by
  cases hf : s.status.fault <;> cases hb : s.status.busy <;> simp [State.phase, hf, hb]

theorem State.phase_eq_faulted {s : State} : s.phase = .faulted ↔ s.status.fault = true := by
  cases hf : s.status.fault <;> cases hb : s.status.busy <;> simp [State.phase, hf, hb]

/-! ## The end of a command -/

@[simp] theorem conclude_ok (s t : State) : conclude s (.ok t) = .next t.retire := rfl

@[simp] theorem conclude_error (s : State) (c : FaultCause) : conclude s (.error c) = .next (s.enterFault c) := rfl

end Sys2Proof.Machine
end

