-- ==== Sys2Proof/Laws/Memory.lean ====
section
/-! SUPPORT. The byte buffer: a read after a write, and the canonical form, which every operation keeps. -/

set_option Elab.async false

namespace Sys2Proof.Machine

@[simp] theorem Memory.read_nil (k : Nat) : Memory.read [] k = 0 := rfl

theorem Memory.wf_nil : Memory.wf [] := ⟨List.Pairwise.nil, by simp⟩

/-- An address below every listed one reads as an unlisted address. -/
theorem Memory.read_of_lt {m : Memory} {k : Nat} (h : ∀ a ∈ m.map Prod.fst, k < a) : m.read k = Memory.unwritten := by
  induction m with
  | nil => rfl
  | cons c m ih =>
    obtain ⟨a, v⟩ := c
    simp only [List.map_cons, List.mem_cons, forall_eq_or_imp] at h
    simp only [Memory.read]
    rw [if_neg (by omega), ih h.2]

theorem Memory.wf_cons {a : Nat} {v : Byte} {m : Memory} :
    Memory.wf ((a, v) :: m) ↔ (∀ b ∈ m.map Prod.fst, a < b) ∧ v ≠ Memory.unwritten ∧ m.wf := by
  simp only [Memory.wf, List.map_cons, List.pairwise_cons, List.mem_cons, forall_eq_or_imp]
  tauto

/-- A read after a write to the same address gives the value written. -/
theorem Memory.read_write_same {m : Memory} (hm : m.wf) (k : Nat) (v : Byte) : (m.write k v).read k = v := by
  induction m with
  | nil => simp only [Memory.write]; split <;> simp_all [Memory.read, Memory.unwritten]
  | cons c m ih =>
    obtain ⟨a, w⟩ := c
    obtain ⟨h1, h2, h3⟩ := Memory.wf_cons.1 hm
    simp only [Memory.write]
    split
    · rename_i hk
      split
      · rename_i hv
        rw [hv]
        apply Memory.read_of_lt
        simp only [List.map_cons, List.mem_cons, forall_eq_or_imp]
        exact ⟨hk, fun b hb => lt_trans hk (h1 b hb)⟩
      · simp [Memory.read]
    · split
      · rename_i hk
        split
        · rename_i hv
          rw [hv, hk]
          exact Memory.read_of_lt h1
        · simp [Memory.read, hk]
      · simp only [Memory.read]
        rw [if_neg (by omega), ih h3]

/-- A write leaves every other address alone. -/
theorem Memory.read_write_ne {m : Memory} (hm : m.wf) {k j : Nat} (v : Byte) (hj : j ≠ k) :
    (m.write k v).read j = m.read j := by
  induction m with
  | nil => simp only [Memory.write]; split <;> simp [Memory.read, Ne.symm hj]
  | cons c m ih =>
    obtain ⟨a, w⟩ := c
    obtain ⟨h1, h2, h3⟩ := Memory.wf_cons.1 hm
    simp only [Memory.write]
    split
    · split
      · rfl
      · simp [Memory.read, Ne.symm hj]
    · split
      · rename_i hk
        subst hk
        split
        · simp only [Memory.read]
          rw [if_neg (Ne.symm hj)]
        · simp [Memory.read, Ne.symm hj]
      · simp only [Memory.read]
        rw [ih h3]

theorem Memory.mem_write_fst {m : Memory} {k : Nat} {v : Byte} {a : Nat}
    (h : a ∈ (m.write k v).map Prod.fst) : a = k ∨ a ∈ m.map Prod.fst := by
  induction m with
  | nil => simp only [Memory.write] at h; split at h <;> simp_all
  | cons c m ih =>
    obtain ⟨b, w⟩ := c
    simp only [Memory.write] at h
    split at h
    · split at h
      · exact .inr h
      · simpa using h
    · split at h
      · rename_i hk
        subst hk
        split at h
        · exact .inr (by simp [h])
        · exact .inr (by simpa using h)
      · simp only [List.map_cons, List.mem_cons] at h ⊢
        rcases h with h | h
        · exact .inr (.inl h)
        · rcases ih h with h | h
          · exact .inl h
          · exact .inr (.inr h)

/-- A write keeps the canonical form. -/
theorem Memory.write_wf {m : Memory} (hm : m.wf) (k : Nat) (v : Byte) : (m.write k v).wf := by
  induction m with
  | nil =>
    simp only [Memory.write]
    split
    · exact Memory.wf_nil
    · exact Memory.wf_cons.2 ⟨by simp, by assumption, Memory.wf_nil⟩
  | cons c m ih =>
    obtain ⟨a, w⟩ := c
    obtain ⟨h1, h2, h3⟩ := Memory.wf_cons.1 hm
    simp only [Memory.write]
    split
    · rename_i hk
      split
      · exact hm
      · refine Memory.wf_cons.2 ⟨?_, by assumption, hm⟩
        simp only [List.map_cons, List.mem_cons, forall_eq_or_imp]
        exact ⟨hk, fun b hb => lt_trans hk (h1 b hb)⟩
    · split
      · split
        · exact h3
        · exact Memory.wf_cons.2 ⟨h1, by assumption, h3⟩
      · refine Memory.wf_cons.2 ⟨fun b hb => ?_, h2, ih h3⟩
        rcases Memory.mem_write_fst hb with h | h
        · omega
        · exact h1 b h

/-- A write to an address of `B` lists no address outside it. -/
theorem Memory.write_inBuffer {m : Memory} (hm : m.inBuffer) {k : Nat} (hk : k < 57) (v : Byte) :
    (m.write k v).inBuffer := by
  intro c hc
  rcases Memory.mem_write_fst (List.mem_map_of_mem hc) with h | h
  · omega
  · obtain ⟨d, hd, he⟩ := List.mem_map.1 h
    exact he ▸ hm d hd

theorem Memory.writeBytes_wf {m : Memory} (hm : m.wf) (k : Nat) (vs : List Byte) : (m.writeBytes k vs).wf := by
  induction vs generalizing m k with
  | nil => exact hm
  | cons v vs ih => exact ih (Memory.write_wf hm k v) (k + 1)

theorem Memory.writeBytes_inBuffer {m : Memory} (hm : m.inBuffer) {k : Nat} {vs : List Byte} (hk : k + vs.length ≤ 57) :
    (m.writeBytes k vs).inBuffer := by
  induction vs generalizing m k with
  | nil => exact hm
  | cons v vs ih =>
    simp only [List.length_cons] at hk
    exact ih (Memory.write_inBuffer hm (by omega) v) (by omega)

/-- What `MemWrite` leaves at every address. -/
theorem Memory.read_writeBytes {m : Memory} (hm : m.wf) (k : Nat) (vs : List Byte) (j : Nat) :
    (m.writeBytes k vs).read j = if k ≤ j then (vs[j - k]?).getD (m.read j) else m.read j := by
  induction vs generalizing m k with
  | nil => simp [Memory.writeBytes]
  | cons v vs ih =>
    simp only [Memory.writeBytes]
    rw [ih (Memory.write_wf hm k v)]
    rcases Nat.lt_trichotomy k j with h | h | h
    · rw [if_pos (by omega), if_pos (by omega), Memory.read_write_ne hm v (by omega),
        show j - k = (j - (k + 1)) + 1 by omega, List.getElem?_cons_succ]
    · subst h
      rw [if_neg (by omega), if_pos (le_refl _), Memory.read_write_same hm]
      simp
    · rw [if_neg (by omega), if_neg (by omega), Memory.read_write_ne hm v (by omega)]

end Sys2Proof.Machine
end

