-- ==== Sys2Proof/Laws/Serdes.lean ====
section
/-! SUPPORT. Bytes and values: the serialized form of a canonical element, unpacking, and the range check
(spec 44_serdes.md R151 to R153). -/

set_option Elab.async false

namespace Sys2Proof.Machine

set_option exponentiation.threshold 1000

/-! ## Bytes -/

theorem bytesNat_lt (l : List Byte) : bytesNat l < 2 ^ (8 * l.length) := by
  induction l with
  | nil => simp [bytesNat]
  | cons v l ih =>
    rw [bytesNat, List.length_cons, Nat.mul_add, Nat.mul_one, Nat.pow_add]
    have := v.isLt
    omega

theorem bytesNat_append (l m : List Byte) : bytesNat (l ++ m) = bytesNat l + 2 ^ (8 * l.length) * bytesNat m := by
  induction l with
  | nil => simp [bytesNat]
  | cons v l ih =>
    simp only [List.cons_append, bytesNat, ih, List.length_cons]
    rw [Nat.mul_add 8, Nat.pow_add]
    ring

/-- The little-endian bytes of a number. -/
def natBytes (n v : Nat) : List Byte := (List.range n).map fun k => BitVec.ofNat 8 (v / 2 ^ (8 * k))

theorem bytesNat_natBytes (n v : Nat) : bytesNat (natBytes n v) = v % 2 ^ (8 * n) := by
  induction n generalizing v with
  | zero => simp [natBytes, bytesNat, Nat.mod_one]
  | succ n ih =>
    have h : natBytes (n + 1) v = BitVec.ofNat 8 v :: natBytes n (v / 2 ^ 8) := by
      simp only [natBytes, List.range_succ_eq_map, List.map_cons, List.map_map, Nat.mul_zero, Nat.pow_zero, Nat.div_one]
      congr 1
      apply List.map_congr_left
      intro k _
      simp only [Function.comp, Nat.succ_eq_add_one, Nat.mul_add, Nat.mul_one, Nat.div_div_eq_div_mul]
      rw [Nat.add_comm (8 * k), Nat.pow_add]
    rw [h, bytesNat, ih, BitVec.toNat_ofNat, Nat.mul_add, Nat.mul_one, Nat.add_comm (8 * n), Nat.pow_add,
      Nat.mod_mul]

theorem eq_of_bytesNat {l m : List Byte} (hl : l.length = m.length) (h : bytesNat l = bytesNat m) : l = m := by
  induction l generalizing m with
  | nil => cases m <;> simp_all
  | cons v l ih =>
    cases m with
    | nil => simp at hl
    | cons w m =>
      simp only [bytesNat] at h
      have hv := v.isLt
      have hw := w.isLt
      have h1 : v.toNat = w.toNat := by omega
      have h2 : bytesNat l = bytesNat m := by omega
      rw [BitVec.eq_of_toNat_eq h1, ih (by simpa using hl) h2]

/-- The bytes of the limbs are the bytes of the value (R151). -/
theorem bytesNat_flatMap {l : List Nat} (h : ∀ x ∈ l, x < 2 ^ 56) : bytesNat (l.flatMap limbBytes) = valNats l := by
  induction l with
  | nil => rfl
  | cons x l ih =>
    simp only [List.mem_cons, forall_eq_or_imp] at h
    have hx : limbBytes x = natBytes 7 x := rfl
    rw [List.flatMap_cons, bytesNat_append, ih h.2, hx, bytesNat_natBytes, valNats_cons, Nat.mod_eq_of_lt h.1]
    simp [natBytes]

@[simp] theorem length_elemBytes (r : Elem) : (elemBytes r).length = 56 := by
  have : ∀ l : List Nat, (l.flatMap limbBytes).length = 7 * l.length := by
    intro l
    induction l with
    | nil => rfl
    | cons x l ih => rw [List.flatMap_cons, List.length_append, ih]; simp [limbBytes]; omega
  rw [elemBytes, this, Elem.length_nats]

theorem bytesNat_elemBytes {v : Nat} (h : v < 2 ^ 448) : bytesNat (elemBytes (limbsOf v)) = v := by
  rw [elemBytes, nats_limbsOf, bytesNat_flatMap (digitNats_lt v), valNats_digitNats, Nat.mod_eq_of_lt h]

/-! ## Buffers -/

@[simp] theorem Memory.length_readBytes (m : Memory) (k n : Nat) : (m.readBytes k n).length = n := by
  simp [Memory.readBytes]

theorem Memory.readBytes_succ (m : Memory) (n : Nat) : m.readBytes 0 (n + 1) = m.readBytes 0 n ++ [m.read n] := by
  simp [Memory.readBytes, List.range_succ]

/-- What a write of the first bytes leaves there. -/
theorem Memory.readBytes_writeBytes {m : Memory} (hm : m.wf) (vs : List Byte) :
    (m.writeBytes 0 vs).readBytes 0 vs.length = vs := by
  apply List.ext_getElem (by simp)
  intro i h1 h2
  simp [Memory.readBytes, Memory.read_writeBytes hm, h2]

theorem Memory.readBytes_congr {m m' : Memory} {n : Nat} (h : ∀ k, k < n → m.read k = m'.read k) :
    m.readBytes 0 n = m'.readBytes 0 n := by
  simp only [Memory.readBytes]
  apply List.map_congr_left
  intro j hj
  simpa using h j (List.mem_range.1 hj)

theorem serBuffer_wf {b : Memory} (hb : b.wf) (r : Elem) (h : Bool) : (serBuffer b r h).wf := by
  unfold serBuffer
  split
  · exact Memory.write_wf (Memory.writeBytes_wf hb _ _) _ _
  · exact Memory.writeBytes_wf hb _ _

theorem serBuffer_inBuffer {b : Memory} (hb : b.inBuffer) (r : Elem) (h : Bool) : (serBuffer b r h).inBuffer := by
  have h56 := Memory.writeBytes_inBuffer (k := 0) (vs := elemBytes r) hb (by simp)
  unfold serBuffer
  split
  · exact Memory.write_inBuffer h56 (by omega) _
  · exact h56

/-- What SER leaves in every byte of the buffer (R152). -/
theorem read_serBuffer {b : Memory} (hb : b.wf) (r : Elem) (h : Bool) (j : Nat) :
    (serBuffer b r h).read j =
      if h = true ∧ j = 56 then 0 else if hj : j < 56 then (elemBytes r)[j]'(by simpa using hj) else b.read j := by
  have hw := Memory.read_writeBytes hb 0 (elemBytes r) j
  have h0 : (b.writeBytes 0 (elemBytes r)).read j =
      if hj : j < 56 then (elemBytes r)[j]'(by simpa using hj) else b.read j := by
    rw [hw, if_pos (Nat.zero_le _), Nat.sub_zero]
    split
    · rw [List.getElem?_eq_getElem (by simpa)]; rfl
    · rw [List.getElem?_eq_none (by simp; omega)]; rfl
  unfold serBuffer
  cases h with
  | false => simpa using h0
  | true =>
    by_cases hj : j = 56
    · subst hj
      simp [Memory.read_write_same (Memory.writeBytes_wf hb _ _)]
    · simp only [if_true, true_and, if_neg hj]
      rw [Memory.read_write_ne (Memory.writeBytes_wf hb _ _) _ hj, h0]

/-- The first 56 bytes after SER are the little-endian value (R151, R152). -/
theorem littleEndian_serBuffer {b : Memory} (hb : b.wf) {v : Nat} (hv : v < 2 ^ 448) (h : Bool) :
    (serBuffer b (limbsOf v) h).littleEndian 56 = v := by
  have he : (serBuffer b (limbsOf v) h).readBytes 0 56 = elemBytes (limbsOf v) := by
    apply List.ext_getElem (by simp)
    intro i h1 h2
    have hi : i < 56 := by simpa using h1
    simp only [Memory.readBytes, List.getElem_map, List.getElem_range, Nat.zero_add, read_serBuffer hb]
    rw [if_neg (by omega), dif_pos hi]
  rw [Memory.littleEndian, he, bytesNat_elemBytes hv]

/-! ## Unpacking -/

theorem bytesNat_take_drop (l : List Byte) (i n : Nat) (h : i + n ≤ l.length) :
    bytesNat ((l.drop i).take n) = bytesNat l / 2 ^ (8 * i) % 2 ^ (8 * n) := by
  have h1 := bytesNat_append (l.take i) (l.drop i)
  have h2 := bytesNat_append ((l.drop i).take n) ((l.drop i).drop n)
  have l1 := bytesNat_lt (l.take i)
  have l2 := bytesNat_lt ((l.drop i).take n)
  rw [List.take_append_drop] at h1 h2
  rw [List.length_take, Nat.min_eq_left (by omega)] at h1 l1
  rw [List.length_take, List.length_drop, Nat.min_eq_left (by omega)] at h2 l2
  rw [h1, Nat.add_mul_div_left _ _ (by positivity), Nat.div_eq_of_lt l1, Nat.zero_add, h2, Nat.add_mul_mod_self_left,
    Nat.mod_eq_of_lt l2]

/-- Unpacking 56 bytes or more gives the limbs of their value (R153). -/
theorem unpack_eq {l : List Byte} (h : 56 ≤ l.length) : unpack l = limbsOf (bytesNat l % 2 ^ 448) := by
  rw [unpack, ← ofNats_digitNats]
  congr 1
  apply List.map_congr_left
  intro i hi
  have hi8 : i < 8 := List.mem_range.1 hi
  rw [bytesNat_take_drop l (7 * i) 7 (by omega)]
  generalize bytesNat l = v
  interval_cases i <;> norm_num only <;> omega

/-! ## The range check -/

theorem rangeBorrow_spec (sc : Int) (x q : List Nat) (hl : x.length = q.length) (hx : ∀ y ∈ x, y < 2 ^ 56)
    (hq : ∀ y ∈ q, y < 2 ^ 56) (hsc : sc = 0 ∨ sc = -1) :
    (rangeBorrow sc x q = 0 ∧ (valNats q : Int) ≤ valNats x + sc) ∨
      (rangeBorrow sc x q = -1 ∧ (valNats x : Int) + sc < valNats q) := by
  induction x generalizing sc q with
  | nil =>
    cases q with
    | nil => rcases hsc with rfl | rfl <;> simp [rangeBorrow]
    | cons y q => simp at hl
  | cons y x ih =>
    cases q with
    | nil => simp at hl
    | cons z q =>
      simp only [List.mem_cons, forall_eq_or_imp] at hx hq
      have hy := hx.1
      have hz := hq.1
      simp only [rangeBorrow, valNats_cons]
      have hn : (sc + y - z) / 2 ^ 64 = 0 ∧ 0 ≤ sc + y - z ∨ (sc + y - z) / 2 ^ 64 = -1 ∧ sc + y - z < 0 := by omega
      rcases hn with ⟨h0, h1⟩ | ⟨h0, h1⟩
      · rcases ih 0 q (by simpa using hl) hx.2 hq.2 (.inl rfl) with ⟨h2, h3⟩ | ⟨h2, h3⟩
        · left; rw [h0]; exact ⟨h2, by omega⟩
        · right; rw [h0]; exact ⟨h2, by omega⟩
      · rcases ih (-1) q (by simpa using hl) hx.2 hq.2 (.inr rfl) with ⟨h2, h3⟩ | ⟨h2, h3⟩
        · left; rw [h0]; exact ⟨h2, by omega⟩
        · right; rw [h0]; exact ⟨h2, by omega⟩

/-- The borrow chain of R153 is −1 exactly when the value is below `p`. -/
theorem rangeBorrow_limbsOf {v : Nat} (hv : v < 2 ^ 448) :
    (rangeBorrow 0 (limbsOf v).nats pLimbs.nats == -1) = decide (v < modulus) := by
  have h := rangeBorrow_spec 0 (limbsOf v).nats pLimbs.nats (by simp)
    (by rw [nats_limbsOf]; exact digitNats_lt v) (by rw [nats_pLimbs]; exact digitNats_lt modulus) (.inl rfl)
  have hval : valNats (limbsOf v).nats = v := val_limbsOf hv
  rw [valNats_pLimbs, hval] at h
  rw [Bool.eq_iff_iff, beq_iff_eq, decide_eq_true_iff]
  generalize rangeBorrow 0 (limbsOf v).nats pLimbs.nats = z at *
  generalize modulus = p at *
  omega

theorem canonWR_limbsOf (v : Nat) : WR (limbsOf v) := by
  intro i
  rw [← Elem.getElem_nats _ _ (by simp)]
  have h := digitNats_lt v _ (List.getElem_mem (show i.val < (digitNats v).length by simp))
  simp only [nats_limbsOf, m56]
  split <;> omega

/-- The hibit of unpacked limbs. -/
theorem hibitV_limbsOf (v : Nat) : hibitV (limbsOf (v % 2 ^ 448)) =
    .ok (maskOf (decide (halfModulus < v % 2 ^ 448 % modulus))) := by
  rw [hibitV_of_WR (canonWR_limbsOf _), residue, val_limbsOf (Nat.mod_lt _ (by norm_num))]

/-! ## Values in the buffer -/

/-- The bytes of a value below `2^448` (R151). -/
theorem elemBytes_limbsOf {v : Nat} (h : v < 2 ^ 448) : elemBytes (limbsOf v) = natBytes 56 v := by
  refine eq_of_bytesNat (by simp [natBytes]) ?_
  rw [bytesNat_elemBytes h, bytesNat_natBytes, Nat.mod_eq_of_lt h]

/-- Masking the last of `n + 1` bytes read. -/
theorem Memory.modify_last (b : Memory) (n : Nat) (nm : Byte) :
    (b.readBytes 0 (n + 1)).modify n (· &&& ~~~nm) = b.readBytes 0 n ++ [b.read n &&& ~~~nm] := by
  rw [Memory.readBytes_succ, List.modify_eq_take_cons_drop (by simp)]
  simp

theorem Memory.littleEndian_lt (b : Memory) (n : Nat) : b.littleEndian n < 2 ^ (8 * n) := by
  have := bytesNat_lt (b.readBytes 0 n)
  simpa [Memory.littleEndian] using this

/-- What DESER reads (R153): the 448-bit value of its bytes, and its final byte. -/
theorem Memory.deserBytes_spec (b : Memory) (h : Bool) (nm : Byte) :
    bytesNat (deserBytes b h nm) % 2 ^ 448 = b.deserValue h nm ∧ 56 ≤ (deserBytes b h nm).length ∧
    (h = true → (deserBytes b h nm).getD 56 0 = b.finalByte h nm) := by
  cases h
  · simp only [deserBytes, Bool.false_eq_true, if_false, Memory.modify_last b 55, Memory.deserValue, Memory.finalByte]
    refine ⟨?_, by simp, by simp⟩
    rw [bytesNat_append, Memory.length_readBytes]
    have h1 := Memory.littleEndian_lt b 55
    have h2 := (b.read 55 &&& ~~~nm).isLt
    unfold Memory.littleEndian at *
    simp only [bytesNat]
    generalize (b.read 55 &&& ~~~nm).toNat = z at *
    generalize bytesNat (b.readBytes 0 55) = y at *
    rw [Nat.mul_zero, Nat.add_zero, Nat.mod_eq_of_lt]
    norm_num only at *
    omega
  · simp only [deserBytes, if_true, Memory.modify_last b 56, Memory.deserValue, Memory.finalByte]
    refine ⟨?_, by simp, by simp⟩
    rw [bytesNat_append, Memory.length_readBytes]
    have h1 := Memory.littleEndian_lt b 56
    unfold Memory.littleEndian at *
    rw [Nat.add_mul_mod_self_left, Nat.mod_eq_of_lt h1]

theorem Memory.deserValue_lt (b : Memory) (h : Bool) (nm : Byte) :
    b.deserValue h nm < 2 ^ 448 := by
  rw [← (Memory.deserBytes_spec b h nm).1]; exact Nat.mod_lt _ (by norm_num)

end Sys2Proof.Machine
end

