-- ==== Sys2Proof/Laws/Exec.lean ====
section
/-! SUPPORT. What each command's meaning answers, once: the shape of its next state. -/

set_option Elab.async false

namespace Sys2Proof.Machine

theorem next_inj {s t : State} (h : (Host.Outcome.next s : Host.Outcome State Fault Refusal) = .next t) : s = t := by
  injection h

@[simp] theorem State.writeReg_same (s : State) (r : Reg) : s.writeReg r (s.reg r) = s := by
  unfold State.writeReg State.reg
  congr 1
  ext i hi j hj : 2
  simp

/-- The status after a completion depends on the status before only. -/
theorem status_retire_congr {s t : State} (h : s.status = t.status) : s.retire.status = t.retire.status := by
  simp [h]

/-! ## One equation per command with an assertion or a mask -/

theorem exec_add (rd ra rb : Reg) (s : State) :
    exec (.add rd ra rb) s = .next (s.writeReg rd (foldedDigits (wrappedSum (s.reg ra) (s.reg rb)))).retire := by
  simp only [exec, execAdd, conclude_ok, weakReduce_eq, val_rawAdd]

theorem exec_sub (rd ra rb : Reg) (s : State) : exec (.sub rd ra rb) s =
    .next (s.writeReg rd (foldedDigits (wrappedDifference (s.reg ra) (s.reg rb)))).retire := by
  simp only [exec, execSub, conclude_ok, weakReduce_eq, val_rawSub]

theorem exec_wred (rd : Reg) (s : State) :
    exec (.wred rd) s = .next (s.writeReg rd (foldedDigits (s.reg rd).val)).retire := by
  simp only [exec, execWred, conclude_ok, weakReduce_eq]

theorem exec_sred (rd : Reg) (s : State) :
    exec (.sred rd) s = .next (s.writeReg rd (limbsOf ((s.reg rd).val % modulus))).retire := by
  simp only [exec, execSred, strongReduce_eq, except_map_ok, conclude_ok]

theorem exec_hibit (ra : Reg) (s : State) : exec (.hibit ra) s =
    .next (s.writeMask (maskOf (wrappedSum (s.reg ra) (s.reg ra) % modulus % 2 == 1))).retire := by
  simp only [exec, execHibit, hibitV_eq, except_map_ok, conclude_ok]

theorem exec_lobit (ra : Reg) (s : State) :
    exec (.lobit ra) s = .next (s.writeMask (maskOf (residue (s.reg ra) % 2 == 1))).retire := by
  simp only [exec, execLobit, lobitV_eq, except_map_ok, conclude_ok]

theorem exec_eq (ra rb : Reg) (s : State) : exec (.eq ra rb) s =
    .next (s.writeMask (maskOf (wrappedDifference (s.reg ra) (s.reg rb) % modulus == 0))).retire := by
  simp only [exec, execEq, eqV_eq, except_map_ok, conclude_ok]

theorem exec_sqrn (rd ra : Reg) {n : BitVec 8} (hn : n ≠ 0) (s : State) :
    exec (.sqrn rd ra n) s = .next (s.writeReg rd (sqrnElem n.toNat (s.reg ra))).retire := by
  simp only [exec, execSqrn, hn, if_false, conclude_ok]

theorem exec_isr (rd ra : Reg) (s : State) : exec (.isr rd ra) s =
    .next ((s.writeReg rd (isrCandidate (s.reg ra))).writeMask (maskOf
      (wrappedDifference (isrCheck (s.reg ra) (isrCandidate (s.reg ra))) one % modulus == 0))).retire := by
  simp only [exec, execIsr, eqV_eq, except_map_ok, conclude_ok]

/-- The hibit of a canonical copy, as SER evaluates it (44_serdes.md R152). -/
theorem hibitV_canonical (x : Elem) : hibitV (limbsOf (x.val % modulus)) =
    .ok (maskOf (decide (halfModulus < residue x))) := by
  rw [hibitV_of_WR (canonWR_limbsOf _), residue_limbsOf_mod]
  rfl

theorem exec_ser (ra : Reg) (h : Bool) (s : State) : exec (.ser ra h) s =
    .next (if h = false ∧ halfModulus < residue (s.reg ra) then s.enterFault .assertSerHibit
      else (s.writeB (serBuffer s.b (limbsOf (residue (s.reg ra))) h)).retire) := by
  simp only [exec, execSer, strongReduce_eq, except_bind_ok, hibitV_canonical]
  have e : (maskOf (decide (halfModulus < residue (s.reg ra))) == all1) = decide (halfModulus < residue (s.reg ra)) := by
    rw [Bool.eq_iff_iff, beq_iff_eq, maskOf_eq_all1]
  rw [e]
  cases h <;> by_cases hh : halfModulus < residue (s.reg ra) <;> simp [hh] <;> rfl

theorem exec_deser (rd : Reg) (h : Bool) (nm : Byte) (s : State) : exec (.deser rd h nm) s =
    .next ((s.writeReg rd (limbsOf (s.b.deserValue h nm))).writeMask (maskOf (s.b.deserAccepts h nm))).retire := by
  obtain ⟨h1, h2, h3⟩ := Memory.deserBytes_spec s.b h nm
  have hu := unpack_eq h2
  rw [h1] at hu
  have hlt := Memory.deserValue_lt s.b h nm
  have hh := hibitV_limbsOf (s.b.deserValue h nm)
  rw [Nat.mod_eq_of_lt hlt] at hh
  simp only [exec, execDeser, hu, hh, except_map_ok, conclude_ok, rangeBorrow_limbsOf hlt]
  congr 3
  unfold Memory.deserAccepts
  have e : ∀ p, (maskOf p == all0) = !p := by intro p; cases p <;> decide
  rw [e]
  congr 1
  generalize s.b.deserValue h nm = V at *
  cases h
  · by_cases hv : V < modulus
    · rw [Nat.mod_eq_of_lt hv]
      by_cases hq : halfModulus < V
      · have : ¬ V ≤ halfModulus := by omega
        simp [hv, hq, this]
      · have : V ≤ halfModulus := by omega
        simp [hv, hq, this]
    · simp [hv]
  · simp only [if_true, h3 rfl, Bool.true_or, Bool.and_true]

/-! ## The shape of every command -/

/-- Everything a well-formed command can do: write a weakly reduced register, write `MASK`, or both; SER is of a shape of
its own (`exec_ser`). -/
theorem exec_cases (i : Instr) (s : State) (hi : i.wf = true) :
    (∃ rd v, i.destination = some rd ∧ i.writesMask = false ∧ i.storedBytes = 0 ∧ WR v ∧
      exec i s = .next (s.writeReg rd v).retire) ∨
    (∃ m, i.destination = none ∧ i.writesMask = true ∧ i.storedBytes = 0 ∧ (m = all0 ∨ m = all1) ∧
      exec i s = .next (s.writeMask m).retire) ∨
    (∃ rd v m, i.destination = some rd ∧ i.writesMask = true ∧ i.storedBytes = 0 ∧ WR v ∧ (m = all0 ∨ m = all1) ∧
      exec i s = .next ((s.writeReg rd v).writeMask m).retire) ∨
    (∃ ra h, i = .ser ra h) := by
  cases i with
  | add rd ra rb => exact .inl ⟨_, _, rfl, rfl, rfl, WR_foldedDigits (wrappedSum_lt _ _), exec_add rd ra rb s⟩
  | sub rd ra rb => exact .inl ⟨_, _, rfl, rfl, rfl, WR_foldedDigits (wrappedDifference_lt _ _), exec_sub rd ra rb s⟩
  | wred rd => exact .inl ⟨_, _, rfl, rfl, rfl, WR_foldedDigits (Elem.val_lt _), exec_wred rd s⟩
  | sred rd => exact .inl ⟨_, _, rfl, rfl, rfl, canonWR_limbsOf _, exec_sred rd s⟩
  | mul rd ra rb => exact .inl ⟨_, _, rfl, rfl, rfl, WR_mulElem _ _, rfl⟩
  | sqr rd ra => exact .inl ⟨_, _, rfl, rfl, rfl, WR_sqrElem _, rfl⟩
  | sqrn rd ra n =>
    have hn : n ≠ 0 := by simpa [Instr.wf] using hi
    exact .inl ⟨_, _, rfl, rfl, rfl, WR_sqrnElem (fun h => hn (BitVec.eq_of_toNat_eq h)) _, exec_sqrn rd ra hn s⟩
  | mulw rd ra w => exact .inl ⟨_, _, rfl, rfl, rfl, (mulwElem_spec _ w).1, rfl⟩
  | hibit ra => exact .inr (.inl ⟨_, rfl, rfl, rfl, maskOf_cases _, exec_hibit ra s⟩)
  | lobit ra => exact .inr (.inl ⟨_, rfl, rfl, rfl, maskOf_cases _, exec_lobit ra s⟩)
  | eq ra rb => exact .inr (.inl ⟨_, rfl, rfl, rfl, maskOf_cases _, exec_eq ra rb s⟩)
  | isr rd ra => exact .inr (.inr (.inl ⟨_, _, _, rfl, rfl, rfl, WR_isrCandidate _, maskOf_cases _, exec_isr rd ra s⟩))
  | deser rd h nm =>
    exact .inr (.inr (.inl ⟨_, _, _, rfl, rfl, rfl, canonWR_limbsOf _, maskOf_cases _, exec_deser rd h nm s⟩))
  | ser ra h => exact .inr (.inr (.inr ⟨ra, h, rfl⟩))

/-- Every well-formed command, completing or faulting, leaves a next state that is not BUSY, its host as it was. -/
theorem exec_next {i : Instr} (s : State) (hi : i.wf = true) :
    ∃ t, exec i s = .next t ∧ t.status.busy = false ∧ t.host = s.host := by
  rcases exec_cases i s hi with ⟨_, _, _, _, _, _, he⟩ | ⟨_, _, _, _, _, he⟩ | ⟨_, _, _, _, _, _, _, _, he⟩ | ⟨ra, h, rfl⟩
  · exact ⟨_, he, rfl, rfl⟩
  · exact ⟨_, he, rfl, rfl⟩
  · exact ⟨_, he, rfl, rfl⟩
  · exact ⟨_, exec_ser ra h s, by split <;> rfl, by split <;> rfl⟩

end Sys2Proof.Machine
end

