-- ==== Sys2Proof/Laws/PerInstr.lean ====
section
/-! SUPPORT. A statement about every command as syntax, one lemma per constructor: the word of a well-formed command
matches its own row of the opcode map (spec 30_encoding.md R64). -/

set_option Elab.async false

namespace Sys2Proof.Laws

/-- The word of a well-formed command matches the row of its mnemonic. -/
def TableRow.Statement (i : Instr) : Prop :=
  i.wf = true → ∃ row ∈ opcodeMap, row.mnemonic = i.mnemonic ∧ row.admits (encode i) = true

/-- A row that is not SQRN's admits a word whose masked bits are its value. -/
theorem OpcodeRow.admits_of_bits {row : OpcodeRow} {w : Word} (h : row.value ≠ 0x0a)
    (hb : ∀ i, i < 64 → (w.getLsbD i && row.mask.getLsbD i) = row.value.getLsbD i) : row.admits w = true := by
  simp only [OpcodeRow.admits, Bool.and_eq_true, beq_iff_eq, Bool.or_eq_true, bne_iff_ne]
  refine ⟨BitVec.eq_of_getLsbD_eq fun i hi => ?_, .inl h⟩
  rw [BitVec.getLsbD_and, hb i hi]

theorem TableRow.add (rd : Reg) (ra : Reg) (rb : Reg) : TableRow.Statement (.add rd ra rb) := by
  intro _
  refine ⟨⟨"add", 0x0000000000000001, 0xfffffffffff000ff⟩, by decide, rfl, OpcodeRow.admits_of_bits (by decide) fun i hi => ?_⟩
  simp only [encode, assemble, BitVec.getLsbD_append]
  interval_cases i <;> simp

theorem TableRow.sub (rd : Reg) (ra : Reg) (rb : Reg) : TableRow.Statement (.sub rd ra rb) := by
  intro _
  refine ⟨⟨"sub", 0x0000000000000002, 0xfffffffffff000ff⟩, by decide, rfl, OpcodeRow.admits_of_bits (by decide) fun i hi => ?_⟩
  simp only [encode, assemble, BitVec.getLsbD_append]
  interval_cases i <;> simp

theorem TableRow.wred (rd : Reg) : TableRow.Statement (.wred rd) := by
  intro _
  refine ⟨⟨"wred", 0x0000000000000003, 0xfffffffffffff0ff⟩, by decide, rfl, OpcodeRow.admits_of_bits (by decide) fun i hi => ?_⟩
  simp only [encode, assemble, BitVec.getLsbD_append]
  interval_cases i <;> simp

theorem TableRow.sred (rd : Reg) : TableRow.Statement (.sred rd) := by
  intro _
  refine ⟨⟨"sred", 0x0000000000000004, 0xfffffffffffff0ff⟩, by decide, rfl, OpcodeRow.admits_of_bits (by decide) fun i hi => ?_⟩
  simp only [encode, assemble, BitVec.getLsbD_append]
  interval_cases i <;> simp

theorem TableRow.hibit (ra : Reg) : TableRow.Statement (.hibit ra) := by
  intro _
  refine ⟨⟨"hibit", 0x0000000000000005, 0xffffffffffff0fff⟩, by decide, rfl, OpcodeRow.admits_of_bits (by decide) fun i hi => ?_⟩
  simp only [encode, assemble, BitVec.getLsbD_append]
  interval_cases i <;> simp

theorem TableRow.lobit (ra : Reg) : TableRow.Statement (.lobit ra) := by
  intro _
  refine ⟨⟨"lobit", 0x0000000000000006, 0xffffffffffff0fff⟩, by decide, rfl, OpcodeRow.admits_of_bits (by decide) fun i hi => ?_⟩
  simp only [encode, assemble, BitVec.getLsbD_append]
  interval_cases i <;> simp

theorem TableRow.eq (ra : Reg) (rb : Reg) : TableRow.Statement (.eq ra rb) := by
  intro _
  refine ⟨⟨"eq", 0x0000000000000007, 0xfffffffffff00fff⟩, by decide, rfl, OpcodeRow.admits_of_bits (by decide) fun i hi => ?_⟩
  simp only [encode, assemble, BitVec.getLsbD_append]
  interval_cases i <;> simp

theorem TableRow.mul (rd : Reg) (ra : Reg) (rb : Reg) : TableRow.Statement (.mul rd ra rb) := by
  intro _
  refine ⟨⟨"mul", 0x0000000000000008, 0xfffffffffff000ff⟩, by decide, rfl, OpcodeRow.admits_of_bits (by decide) fun i hi => ?_⟩
  simp only [encode, assemble, BitVec.getLsbD_append]
  interval_cases i <;> simp

theorem TableRow.sqr (rd : Reg) (ra : Reg) : TableRow.Statement (.sqr rd ra) := by
  intro _
  refine ⟨⟨"sqr", 0x0000000000000009, 0xffffffffffff00ff⟩, by decide, rfl, OpcodeRow.admits_of_bits (by decide) fun i hi => ?_⟩
  simp only [encode, assemble, BitVec.getLsbD_append]
  interval_cases i <;> simp

theorem TableRow.sqrn (rd : Reg) (ra : Reg) (n : BitVec 8) : TableRow.Statement (.sqrn rd ra n) := by
  intro hn
  refine ⟨⟨"sqrn", 0x000000000000000a, 0xffffff00ffff00ff⟩, by decide, rfl, ?_⟩
  simp only [OpcodeRow.admits, Bool.and_eq_true, beq_iff_eq, Bool.or_eq_true, bne_iff_ne]
  refine ⟨BitVec.eq_of_getLsbD_eq fun i hi => ?_, .inr fun hc => ?_⟩
  · simp only [encode, assemble, BitVec.getLsbD_and, BitVec.getLsbD_append]
    interval_cases i <;> simp
  · have h8 : (encode (.sqrn rd ra n)).extractLsb' 32 8 = n := by
      apply BitVec.eq_of_getLsbD_eq
      intro i hi
      simp only [encode, assemble, BitVec.getLsbD_extractLsb', BitVec.getLsbD_append]
      interval_cases i <;> simp
    rw [h8] at hc
    simp [Instr.wf, hc] at hn

theorem TableRow.mulw (rd : Reg) (ra : Reg) (w : BitVec 32) : TableRow.Statement (.mulw rd ra w) := by
  intro _
  refine ⟨⟨"mulw", 0x000000000000000b, 0x00000000ffff00ff⟩, by decide, rfl, OpcodeRow.admits_of_bits (by decide) fun i hi => ?_⟩
  simp only [encode, assemble, BitVec.getLsbD_append]
  interval_cases i <;> simp

theorem TableRow.isr (rd : Reg) (ra : Reg) : TableRow.Statement (.isr rd ra) := by
  intro _
  refine ⟨⟨"isr", 0x000000000000000c, 0xffffffffffff00ff⟩, by decide, rfl, OpcodeRow.admits_of_bits (by decide) fun i hi => ?_⟩
  simp only [encode, assemble, BitVec.getLsbD_append]
  interval_cases i <;> simp

theorem TableRow.ser (ra : Reg) (h : Bool) : TableRow.Statement (.ser ra h) := by
  intro _
  refine ⟨⟨"ser", 0x000000000000000d, 0xfffffffeffff0fff⟩, by decide, rfl, OpcodeRow.admits_of_bits (by decide) fun i hi => ?_⟩
  simp only [encode, assemble, BitVec.getLsbD_append]
  interval_cases i <;> simp

theorem TableRow.deser (rd : Reg) (h : Bool) (nm : Byte) : TableRow.Statement (.deser rd h nm) := by
  intro _
  refine ⟨⟨"deser", 0x000000000000000e, 0xffff00fefffff0ff⟩, by decide, rfl, OpcodeRow.admits_of_bits (by decide) fun i hi => ?_⟩
  simp only [encode, assemble, BitVec.getLsbD_append]
  interval_cases i <;> simp

end Sys2Proof.Laws
end

