-- ==== Sys2Proof/Laws/Prime.lean ====
section
/-! SUPPORT. The modulus is prime (spec 00_scope.md R2), by Lucas certificates from the factors of `p − 1`. -/

set_option Elab.async false

namespace Sys2Proof

set_option exponentiation.threshold 1000

/-- `a^e mod m` by repeated squaring, `f` bits of `e`. -/
def powMod (m : Nat) : Nat → Nat → Nat → Nat
  | 0, _, _ => 1 % m
  | f + 1, a, e =>
    if e % 2 = 1 then a * powMod m f (a * a % m) (e / 2) % m else powMod m f (a * a % m) (e / 2)

theorem powMod_eq (m f a e : Nat) (h : e < 2 ^ f) : powMod m f a e = a ^ e % m := by
  induction f generalizing a e with
  | zero =>
    obtain rfl : e = 0 := by omega
    rfl
  | succ f ih =>
    have h2 : e / 2 < 2 ^ f := by rw [Nat.pow_succ] at h; omega
    have hp : powMod m f (a * a % m) (e / 2) = (a * a) ^ (e / 2) % m := by rw [ih _ _ h2, ← Nat.pow_mod]
    rw [powMod, hp]
    split
    · rename_i ho
      rw [Nat.mul_mod_mod, ← sq, ← Nat.pow_mul, ← Nat.pow_succ']
      congr 2
      omega
    · rw [← sq, ← Nat.pow_mul]
      congr 2
      omega

/-- A certificate: a base of order `p − 1` and the prime factors of `p − 1`. -/
def certified (p a f : Nat) (l : List Nat) : Bool :=
  l.prod + 1 == p && decide (1 < p) && decide (p < 2 ^ f) && powMod p f a (p - 1) == 1 &&
    l.all fun q => powMod p f a ((p - 1) / q) != 1

theorem prime_of_certified {p a : Nat} (f : Nat) {l : List Nat} (h : certified p a f l = true)
    (hl : ∀ q ∈ l, q.Prime) : p.Prime := by
  simp only [certified, Bool.and_eq_true, beq_iff_eq, decide_eq_true_iff, List.all_eq_true, bne_iff_ne] at h
  obtain ⟨⟨⟨⟨hp, h1⟩, hf⟩, ha⟩, hq⟩ := h
  rw [powMod_eq _ _ _ _ (by omega)] at ha
  have cast : ∀ e, ((a : ZMod p) ^ e = 1) ↔ a ^ e % p = 1 := by
    intro e
    rw [← Nat.cast_pow, ← Nat.cast_one, ZMod.natCast_eq_natCast_iff', Nat.mod_eq_of_lt h1]
  refine lucas_primality p (a : ZMod p) ((cast _).2 ha) fun q hqp hqd => ?_
  have hmem : q ∈ l := by
    rw [← hp, Nat.add_sub_cancel] at hqd
    obtain ⟨r, hr, hd⟩ := (Nat.Prime.prime hqp).dvd_prod_iff.1 hqd
    exact ((Nat.prime_dvd_prime_iff_eq hqp (hl r hr)).1 hd) ▸ hr
  have := hq q hmem
  rw [powMod_eq _ _ _ _ (lt_of_le_of_lt (Nat.div_le_self _ _) (by omega))] at this
  exact fun hc => this ((cast _).1 hc)

theorem prime_1609403 : Nat.Prime 1609403 :=
  prime_of_certified (a := 2) 21 (l := [2, 23, 59, 593])
    (by decide +kernel) (by
      simp only [List.mem_cons, List.not_mem_nil, or_false, forall_eq_or_imp, forall_eq]
      refine ⟨(by norm_num), (by norm_num), (by norm_num), (by norm_num)⟩)

theorem prime_3402277943 : Nat.Prime 3402277943 :=
  prime_of_certified (a := 5) 32 (l := [2, 7, 151, 1609403])
    (by decide +kernel) (by
      simp only [List.mem_cons, List.not_mem_nil, or_false, forall_eq_or_imp, forall_eq]
      refine ⟨(by norm_num), (by norm_num), (by norm_num), prime_1609403⟩)

theorem prime_1466449 : Nat.Prime 1466449 :=
  prime_of_certified (a := 7) 21 (l := [2, 2, 2, 2, 3, 137, 223])
    (by decide +kernel) (by
      simp only [List.mem_cons, List.not_mem_nil, or_false, forall_eq_or_imp, forall_eq]
      refine ⟨(by norm_num), (by norm_num), (by norm_num), (by norm_num), (by norm_num), (by norm_num),
          (by norm_num)⟩)

theorem prime_2916841 : Nat.Prime 2916841 :=
  prime_of_certified (a := 13) 22 (l := [2, 2, 2, 3, 5, 109, 223])
    (by decide +kernel) (by
      simp only [List.mem_cons, List.not_mem_nil, or_false, forall_eq_or_imp, forall_eq]
      refine ⟨(by norm_num), (by norm_num), (by norm_num), (by norm_num), (by norm_num), (by norm_num),
          (by norm_num)⟩)

theorem prime_6700417 : Nat.Prime 6700417 :=
  prime_of_certified (a := 5) 23 (l := [2, 2, 2, 2, 2, 2, 2, 3, 17449])
    (by decide +kernel) (by
      simp only [List.mem_cons, List.not_mem_nil, or_false, forall_eq_or_imp, forall_eq]
      refine ⟨(by norm_num), (by norm_num), (by norm_num), (by norm_num), (by norm_num), (by norm_num),
          (by norm_num), (by norm_num), (by norm_num)⟩)

theorem prime_1469495262398780123809 : Nat.Prime 1469495262398780123809 :=
  prime_of_certified (a := 17) 71 (l := [2, 2, 2, 2, 2, 3, 7, 7, 223, 411743, 3402277943])
    (by decide +kernel) (by
      simp only [List.mem_cons, List.not_mem_nil, or_false, forall_eq_or_imp, forall_eq]
      refine ⟨(by norm_num), (by norm_num), (by norm_num), (by norm_num), (by norm_num), (by norm_num),
          (by norm_num), (by norm_num), (by norm_num), (by norm_num), prime_3402277943⟩)

theorem prime_97859369123353 : Nat.Prime 97859369123353 :=
  prime_of_certified (a := 5) 47 (l := [2, 2, 2, 3, 3, 67, 197, 271, 379979])
    (by decide +kernel) (by
      simp only [List.mem_cons, List.not_mem_nil, or_false, forall_eq_or_imp, forall_eq]
      refine ⟨(by norm_num), (by norm_num), (by norm_num), (by norm_num), (by norm_num), (by norm_num),
          (by norm_num), (by norm_num), (by norm_num)⟩)

theorem prime_167773885276849215533569 : Nat.Prime 167773885276849215533569 :=
  prime_of_certified (a := 17) 78 (l := [2, 2, 2, 2, 2, 2, 2, 2, 2, 3, 3, 3, 7, 7, 2531, 97859369123353])
    (by decide +kernel) (by
      simp only [List.mem_cons, List.not_mem_nil, or_false, forall_eq_or_imp, forall_eq]
      refine ⟨(by norm_num), (by norm_num), (by norm_num), (by norm_num), (by norm_num), (by norm_num),
          (by norm_num), (by norm_num), (by norm_num), (by norm_num), (by norm_num), (by norm_num),
          (by norm_num), (by norm_num), (by norm_num), prime_97859369123353⟩)

theorem prime_1764234391 : Nat.Prime 1764234391 :=
  prime_of_certified (a := 3) 31 (l := [2, 3, 5, 271, 217003])
    (by decide +kernel) (by
      simp only [List.mem_cons, List.not_mem_nil, or_false, forall_eq_or_imp, forall_eq]
      refine ⟨(by norm_num), (by norm_num), (by norm_num), (by norm_num), (by norm_num)⟩)

theorem prime_34741861125639557 : Nat.Prime 34741861125639557 :=
  prime_of_certified (a := 13) 55 (l := [2, 2, 7, 7, 7, 31, 463, 1764234391])
    (by decide +kernel) (by
      simp only [List.mem_cons, List.not_mem_nil, or_false, forall_eq_or_imp, forall_eq]
      refine ⟨(by norm_num), (by norm_num), (by norm_num), (by norm_num), (by norm_num), (by norm_num),
          (by norm_num), prime_1764234391⟩)

theorem prime_36131535570665139281 : Nat.Prime 36131535570665139281 :=
  prime_of_certified (a := 3) 65 (l := [2, 2, 2, 2, 5, 13, 34741861125639557])
    (by decide +kernel) (by
      simp only [List.mem_cons, List.not_mem_nil, or_false, forall_eq_or_imp, forall_eq]
      refine ⟨(by norm_num), (by norm_num), (by norm_num), (by norm_num), (by norm_num), (by norm_num),
          prime_34741861125639557⟩)

theorem prime_596242599987116128415063 : Nat.Prime 596242599987116128415063 :=
  prime_of_certified (a := 5) 79 (l := [2, 37, 223, 36131535570665139281])
    (by decide +kernel) (by
      simp only [List.mem_cons, List.not_mem_nil, or_false, forall_eq_or_imp, forall_eq]
      refine ⟨(by norm_num), (by norm_num), (by norm_num), prime_36131535570665139281⟩)

theorem prime_36753053 : Nat.Prime 36753053 :=
  prime_of_certified (a := 2) 26 (l := [2, 2, 7, 443, 2963])
    (by decide +kernel) (by
      simp only [List.mem_cons, List.not_mem_nil, or_false, forall_eq_or_imp, forall_eq]
      refine ⟨(by norm_num), (by norm_num), (by norm_num), (by norm_num), (by norm_num)⟩)

theorem prime_1255525949 : Nat.Prime 1255525949 :=
  prime_of_certified (a := 2) 31 (l := [2, 2, 2683, 116989])
    (by decide +kernel) (by
      simp only [List.mem_cons, List.not_mem_nil, or_false, forall_eq_or_imp, forall_eq]
      refine ⟨(by norm_num), (by norm_num), (by norm_num), (by norm_num)⟩)

theorem prime_1335912079 : Nat.Prime 1335912079 :=
  prime_of_certified (a := 6) 31 (l := [2, 3, 19, 31, 61, 6197])
    (by decide +kernel) (by
      simp only [List.mem_cons, List.not_mem_nil, or_false, forall_eq_or_imp, forall_eq]
      refine ⟨(by norm_num), (by norm_num), (by norm_num), (by norm_num), (by norm_num), (by norm_num)⟩)

theorem prime_32061889897 : Nat.Prime 32061889897 :=
  prime_of_certified (a := 10) 35 (l := [2, 2, 2, 3, 1335912079])
    (by decide +kernel) (by
      simp only [List.mem_cons, List.not_mem_nil, or_false, forall_eq_or_imp, forall_eq]
      refine ⟨(by norm_num), (by norm_num), (by norm_num), (by norm_num), prime_1335912079⟩)

theorem prime_25136521679249 : Nat.Prime 25136521679249 :=
  prime_of_certified (a := 3) 45 (l := [2, 2, 2, 2, 7, 7, 32061889897])
    (by decide +kernel) (by
      simp only [List.mem_cons, List.not_mem_nil, or_false, forall_eq_or_imp, forall_eq]
      refine ⟨(by norm_num), (by norm_num), (by norm_num), (by norm_num), (by norm_num), (by norm_num),
          prime_32061889897⟩)

theorem prime_37414057161322375957408148834323969 : Nat.Prime 37414057161322375957408148834323969 :=
  prime_of_certified (a := 23) 115 (l := [2, 2, 2, 2, 2, 2, 2, 2, 2, 3, 3, 7, 36753053, 1255525949, 25136521679249])
    (by decide +kernel) (by
      simp only [List.mem_cons, List.not_mem_nil, or_false, forall_eq_or_imp, forall_eq]
      refine ⟨(by norm_num), (by norm_num), (by norm_num), (by norm_num), (by norm_num), (by norm_num),
          (by norm_num), (by norm_num), (by norm_num), (by norm_num), (by norm_num), (by norm_num),
          prime_36753053, prime_1255525949, prime_25136521679249⟩)

/-- `p` is prime (R2). -/
theorem modulus_prime : Nat.Prime modulus :=
  prime_of_certified (a := 7) 448 (l := [2, 641, 18287, 196687, 1466449, 2916841, 6700417,
      1469495262398780123809, 167773885276849215533569, 596242599987116128415063,
      37414057161322375957408148834323969])
    (by decide +kernel) (by
      simp only [List.mem_cons, List.not_mem_nil, or_false, forall_eq_or_imp, forall_eq]
      refine ⟨(by norm_num), (by norm_num), (by norm_num), (by norm_num), prime_1466449, prime_2916841,
          prime_6700417, prime_1469495262398780123809, prime_167773885276849215533569,
          prime_596242599987116128415063, prime_37414057161322375957408148834323969⟩)

end Sys2Proof
end

