-- ==== Sys2Proof/Laws/Step.lean ====
section
/-! SUPPORT. Everything a step can do, once. -/

set_option Elab.async false

namespace Sys2Proof.Machine

/-- Only `Reset()` has the access of a reset. -/
theorem HostOp.eq_reset_of_access {op : HostOp} (h : op.access = .ok .reset) : op = .reset := by
  cases op <;> simp [HostOp.access] at h ⊢
  all_goals (split at h <;> simp at h)

/-- A host operation out of BUSY is served by the access of the phase. -/
theorem step_served {s : State} {op : HostOp} {rest : List HostOp} {a : Access} (hp : s.phase ≠ .busy)
    (hh : s.host = op :: rest) (ha : op.access = .ok a) (hr : a ≠ .reset) :
    step s = .next (match s.phase with
      | .idle => idleAccess a rest s
      | .busy => faultedAccess a rest s
      | .faulted => faultedAccess a rest s) := by
  simp only [step, advance, hh]
  split
  · rename_i h
    simp only [List.cons.injEq] at h
    simp only [h.1, HostOp.access, Except.ok.injEq] at ha
    exact absurd ha.symm hr
  · simp only [hp, false_and, if_false, hostTurn, hh, ha]
    cases hq : s.phase <;> simp_all

/-- A host operation while BUSY, time left, is the access of that phase. -/
theorem step_busy {s : State} {op : HostOp} {rest : List HostOp} {a : Access} (hp : s.phase = .busy) (hl : s.left ≠ 0)
    (hh : s.host = op :: rest) (ha : op.access = .ok a) (hr : a ≠ .reset) : step s = busyAccess a rest s := by
  simp only [step, advance, hh]
  split
  · rename_i h
    simp only [List.cons.injEq] at h
    simp only [h.1, HostOp.access, Except.ok.injEq] at ha
    exact absurd ha.symm hr
  · simp [hp, hl, hostTurn, hh, ha]

/-- A pending wait ends out of BUSY: it is served, `STATUS` its reply (R195). -/
theorem step_wait_ends {s : State} {rest : List HostOp} (hp : s.phase ≠ .busy) (hh : s.host = .wait :: rest) :
    step s = .next (s.served rest (some (.word s.status.word))) := by
  rw [step_served hp hh rfl (by simp)]
  cases s.phase <;> rfl

/-- Every step that answers a next state is a reset, the completion of the command in flight, a wait of a BUSY engine, a
read (or nothing, or an ignored write) out of BUSY, or a write in IDLE. -/
theorem step_cases {s t : State} (h : step s = .next t) :
    (∃ rest, s.host = .reset :: rest ∧ t = State.applyReset rest) ∨
    (s.phase = .busy ∧ s.left = 0 ∧ ∃ i, decode s.cmd = .ok i ∧ exec i { s with reply := none } = .next t) ∨
    (s.phase = .busy ∧ s.left ≠ 0 ∧ ∃ rest r, t = s.elapse.served rest r) ∨
    (s.phase ≠ .busy ∧ ∃ r, t = s.served s.host.tail r) ∨
    (s.phase = .idle ∧ ∃ op rest p v, s.host = op :: rest ∧ op.access = .ok (.write p v) ∧
      t = (s.writePort p v).served rest none) := by
  simp only [step, advance] at h
  split at h
  · rename_i rest hh
    injection h with h
    exact .inl ⟨rest, hh, h.symm⟩
  rename_i hn
  split at h
  · rename_i hc
    simp only [completion] at h
    split at h
    · rename_i i hd
      exact .inr (.inl ⟨hc.1, hc.2, i, hd, h⟩)
    · cases h
  rename_i hc
  simp only [hostTurn] at h
  split at h
  · rename_i hh
    split at h <;> injection h with h
    · rename_i hp
      exact .inr (.inr (.inl ⟨hp, fun hl => hc ⟨hp, hl⟩, _, _, h.symm⟩))
    · rename_i hp
      exact .inr (.inr (.inr (.inl ⟨by simp [hp], none, by simp [← h, hh]⟩)))
    · rename_i hp
      exact .inr (.inr (.inr (.inl ⟨by simp [hp], none, by simp [← h, hh]⟩)))
  rename_i op rest hh
  split at h
  · cases h
  rename_i a ha
  have hr : a ≠ .reset := fun e => by
    subst e
    exact hn rest (by rw [hh, HostOp.eq_reset_of_access ha])
  split at h
  · rename_i hp
    injection h with h
    rcases a with (_ | ⟨p, v⟩ | _ | _ | _)
    · exact .inr (.inr (.inr (.inl ⟨by simp [hp], _, by rw [← h, hh]; rfl⟩)))
    · exact .inr (.inr (.inr (.inr ⟨hp, op, rest, p, v, hh, ha, h.symm⟩)))
    · exact absurd rfl hr
    · exact .inr (.inr (.inr (.inl ⟨by simp [hp], _, by rw [← h, hh]; rfl⟩)))
    · exact .inr (.inr (.inr (.inl ⟨by simp [hp], _, by rw [← h, hh]; rfl⟩)))
  · rename_i hp
    injection h with h
    rcases a with (_ | _ | _ | _ | _)
    · exact .inr (.inr (.inr (.inl ⟨by simp [hp], _, by rw [← h, hh]; rfl⟩)))
    · exact .inr (.inr (.inr (.inl ⟨by simp [hp], _, by rw [← h, hh]; rfl⟩)))
    · exact absurd rfl hr
    · exact .inr (.inr (.inr (.inl ⟨by simp [hp], _, by rw [← h, hh]; rfl⟩)))
    · exact .inr (.inr (.inr (.inl ⟨by simp [hp], _, by rw [← h, hh]; rfl⟩)))
  · rename_i hp
    have hl : s.left ≠ 0 := fun hl => hc ⟨hp, hl⟩
    rcases a with (p | _ | _ | _ | _)
    · cases p <;> simp only [busyAccess, reduceCtorEq, Host.Outcome.next.injEq] at h
      exact .inr (.inr (.inl ⟨hp, hl, _, _, h.symm⟩))
    · cases h
    · exact absurd rfl hr
    · injection h with h
      exact .inr (.inr (.inl ⟨hp, hl, _, _, h.symm⟩))
    · injection h with h
      exact .inr (.inr (.inl ⟨hp, hl, _, _, h.symm⟩))

end Sys2Proof.Machine
end

