-- ==== Sys2Proof/Tests/Slice0.lean ====
section
/-! SUPPORT. Tests: the well-formedness check, decoding of words written out from the spec's encodings, one or two vectors
of the spec per command, and for every statement with hypotheses a state that meets them. -/

set_option Elab.async false

namespace Sys2Proof.Tests

open Sys2Proof.Machine

/-! ## Small states -/

/-- The reset state with `f1` and `f2` given. -/
def regs (a b : Elem) : State := (State.reset.writeReg 1 a).writeReg 2 b

/-- The reset state with a host. -/
def hosted (ops : List HostOp) : State := { State.reset with host := ops }

/-- BUSY with a command in flight, some time left, and a host. -/
def busyWith (w : Word) (left : Nat) (ops : List HostOp) : State :=
  { State.reset with status := { busy := true, fault := false, fcause := 0 }, cmd := w, left := left, host := ops }

/-- FAULTED with cause 1 and a host. -/
def faultedWith (ops : List HostOp) : State :=
  { State.reset with status := { busy := false, fault := true, fcause := 1 }, host := ops }

/-- A register after one command. -/
def regAfter (i : Instr) (s : State) (r : Reg) : Option Elem := (nextOf (exec i s)).map fun t => t.reg r

/-- `MASK` after one command. -/
def maskAfter (i : Instr) (s : State) : Option Word := (nextOf (exec i s)).map fun t => t.mask

/-- Limbs of `p − 1` (40_addsub_reduce.md R93, the example). -/
def pMinus1 : Elem := #v[0xfffffffffffffe, 0xffffffffffffff, 0xffffffffffffff, 0xffffffffffffff, 0xfffffffffffffe,
  0xffffffffffffff, 0xffffffffffffff, 0xffffffffffffff]

/-- The element `(n, 0, …, 0)`. -/
def small (n : Word) : Elem := #v[n, 0, 0, 0, 0, 0, 0, 0]

/-- The largest weakly reduced element (40_addsub_reduce.md R95). -/
def largestWR : Elem := #v[0x1000000000000ff, 0xffffffffffffff, 0xffffffffffffff, 0xffffffffffffff, 0x1000000000000ff,
  0xffffffffffffff, 0xffffffffffffff, 0xffffffffffffff]

/-- Limbs of `(p + 1)/2 = 2^447 − 2^223` (43_isr.md R144). -/
def halfPlus1 : Elem := #v[0, 0, 0, 0x80000000000000, 0xffffffffffffff, 0xffffffffffffff, 0xffffffffffffff,
  0x7fffffffffffff]

/-- Limbs of `(p − 1)/2`. -/
def halfP : Elem := #v[0xffffffffffffff, 0xffffffffffffff, 0xffffffffffffff, 0x7fffffffffffff, 0xffffffffffffff,
  0xffffffffffffff, 0xffffffffffffff, 0x7fffffffffffff]

/-! ## Well-formedness (30_encoding.md R63, R65: `n` = 0 is refused) -/

theorem test_wf_refuses_sqrn_zero : (Instr.sqrn 2 1 0).wf = false := by decide
theorem test_wf_accepts_sqrn : (Instr.sqrn 2 1 1).wf = true ∧ (Instr.sqrn 2 1 255).wf = true := by decide
theorem test_decode_refuses_sqrn_zero : decode 0x000000000000120a = .error .zeroCount := by decide

/-! ## Decoding: the words of 30_encoding.md's encoding examples -/

theorem test_decode_add : decode 0x0000000000021301 = .ok (.add 3 1 2) := by decide
theorem test_decode_sub : decode 0x00000000000ff002 = .ok (.sub 0 15 15) := by decide
theorem test_decode_wred : decode 0x0000000000000703 = .ok (.wred 7) := by decide
theorem test_decode_sred : decode 0x0000000000000204 = .ok (.sred 2) := by decide
theorem test_decode_hibit : decode 0x0000000000004005 = .ok (.hibit 4) := by decide
theorem test_decode_lobit : decode 0x0000000000004006 = .ok (.lobit 4) := by decide
theorem test_decode_eq : decode 0x0000000000021007 = .ok (.eq 1 2) := by decide
theorem test_decode_mul : decode 0x0000000000021308 = .ok (.mul 3 1 2) := by decide
theorem test_decode_sqr : decode 0x0000000000001309 = .ok (.sqr 3 1) := by decide
theorem test_decode_sqrn : decode 0x000000df0000120a = .ok (.sqrn 2 1 223) := by decide
theorem test_decode_mulw : decode 0xffffffff0000120b = .ok (.mulw 2 1 0xffffffff) := by decide
theorem test_decode_isr : decode 0x000000000000120c = .ok (.isr 2 1) := by decide
theorem test_decode_ser : decode 0x000000000000100d = .ok (.ser 1 false) ∧ decode 0x000000010000100d = .ok (.ser 1 true) := by
  decide
theorem test_decode_deser : decode 0x000000000000010e = .ok (.deser 1 false 0) ∧
    decode 0x000080010000010e = .ok (.deser 1 true 0x80) := by decide

/-- Illegal words of R65: a cleared bus, a floating bus, op `0x0f`, a reserved bit, an unused register field, an unused
immediate bit of SER and of DESER. -/
theorem test_decode_illegal :
    decode 0 = .error .unassignedOpcode ∧ decode 0xffffffffffffffff = .error .unassignedOpcode ∧
    decode 0x000000000000000f = .error .unassignedOpcode ∧ decode 0x0000000000121301 = .error .reservedBits ∧
    decode 0x0000000000001703 = .error .unusedRegister ∧ decode 0x000000020000100d = .error .unusedImmediate ∧
    decode 0x000100000000010e = .error .unusedImmediate := by decide

theorem test_decode_table_word : decodeTableWord 64 0x0000000000021301 = some (.add 3 1 2) ∧
    decodeTableWord 64 0x000000000000000a = none := by decide

/-! ## Commands: examples and corner cases of their rules -/

/-- R93, the example: `p − 1` plus 2. -/
theorem test_add_wraps : regAfter (.add 3 1 2) (regs pMinus1 (small 2)) 3 =
    some #v[0, 0, 0, 0, 0xffffffffffffff, 0xffffffffffffff, 0xffffffffffffff, 0xffffffffffffff] := by decide +kernel
/-- R93, corner case: the two largest weakly reduced elements, carry 2. -/
theorem test_add_largest : regAfter (.add 3 1 1) (regs largestWR zero) 3 =
    some #v[0x200, 0, 0, 0, 0x202, 0, 0, 0] := by decide +kernel
/-- R94, the example: 3 − 5. -/
theorem test_sub_negative : regAfter (.sub 3 1 2) (regs (small 3) (small 5)) 3 =
    some #v[0xfffffffffffffd, 0xffffffffffffff, 0xffffffffffffff, 0xffffffffffffff, 0xfffffffffffffe,
      0xffffffffffffff, 0xffffffffffffff, 0xffffffffffffff] := by decide +kernel
/-- R94, corner case: equal operands leave `PL`. -/
theorem test_sub_equal : regAfter (.sub 1 1 1) (regs pMinus1 zero) 1 = some pLimbs := by decide +kernel
/-- R95, the example: eight limbs of all ones. -/
theorem test_wred_all_ones : regAfter (.wred 1) (regs (Vector.replicate 8 all1) zero) 1 =
    some #v[0x01000000000000ff, 0xfe, 0xff, 0xff, 0x1ff, 0xff, 0xff, 0xff] := by decide +kernel
/-- R97, corner cases: `PL` and eight limbs `M56`. -/
theorem test_sred_corners : regAfter (.sred 1) (regs pLimbs zero) 1 = some zero ∧
    regAfter (.sred 1) (regs (Vector.replicate 8 0xffffffffffffff) zero) 1 = some #v[0, 0, 0, 0, 1, 0, 0, 0] := by
  decide +kernel
/-- R111, corner cases: `(p − 1)/2` and `(p + 1)/2`. -/
theorem test_hibit_half : maskAfter (.hibit 1) (regs halfP zero) = some all0 ∧
    maskAfter (.hibit 1) (regs halfPlus1 zero) = some all1 := by decide +kernel
/-- R112, corner cases: a non-canonical 1 with an even limb 0, and `p − 1`. -/
theorem test_lobit_canonical : maskAfter (.lobit 1) (regs #v[0, 0, 0, 0, 0xffffffffffffff, 0xffffffffffffff,
      0xffffffffffffff, 0xffffffffffffff] zero) = some all1 ∧
    maskAfter (.lobit 1) (regs pMinus1 zero) = some all0 := by decide +kernel
/-- R113, corner cases: `PL` against zero, 5 against 3. -/
theorem test_eq_residues : maskAfter (.eq 1 2) (regs pLimbs zero) = some all1 ∧
    maskAfter (.eq 1 2) (regs (small 5) (small 3)) = some all0 := by decide +kernel
/-- R123, the example. -/
theorem test_mul_example : regAfter (.mul 3 1 2) (regs #v[1, 2, 3, 4, 5, 6, 7, 8] #v[9, 10, 11, 12, 13, 14, 15, 16]) 3 =
    some #v[0x2ed, 0x2b0, 0x254, 0x1d8, 0x4b8, 0x45c, 0x3ce, 0x30c] := by decide +kernel
/-- R123, corner case: the largest weakly reduced element squared. -/
theorem test_mul_largest : regAfter (.mul 3 1 1) (regs largestWR zero) 3 =
    some #v[0x20201, 0, 0, 0, 0x30401, 0, 0, 0] := by decide +kernel
/-- R124, corner case: `2^223` squared is `2^446`. -/
theorem test_sqr_no_fold : regAfter (.sqr 3 1) (regs #v[0, 0, 0, 0x80000000000000, 0, 0, 0, 0] zero) 3 =
    some #v[0, 0, 0, 0, 0, 0, 0, 0x40000000000000] := by decide +kernel
/-- R125, the example: `2^512`. -/
theorem test_sqrn_nine : regAfter (.sqrn 2 1 9) (regs (small 2) zero) 2 =
    some #v[0, 0x100, 0, 0, 0, 0x100, 0, 0] := by decide +kernel
/-- R126, corner case: `0xffffffff` on the largest weakly reduced element. -/
theorem test_mulw_largest : regAfter (.mulw 2 1 0xffffffff) (regs largestWR zero) 2 =
    some #v[0xffffffff00, 0, 0, 0, 0x100fffffeff, 0, 0, 0] := by decide +kernel
/-- R144: ISR of 4. -/
theorem test_isr_four : (nextOf (exec (.isr 2 1) (regs (small 4) zero))).map (fun t => (t.reg 2, t.mask)) =
    some (halfPlus1, all1) := by decide +kernel

/-- The bytes of `p − 1` (R152, the example). -/
def pMinus1Bytes : List Byte := [0xfe] ++ List.replicate 27 0xff ++ [0xfe] ++ List.replicate 27 0xff

/-- R152, the example: `ser f1, 1` on `p − 1`, with byte 56 cleared. -/
theorem test_ser_example : (nextOf (exec (.ser 1 true) ((regs pMinus1 zero).writeB [(56, 0x80)]))).map
    (fun t => (t.b.readBytes 0 57, t.status.fault)) = some (pMinus1Bytes ++ [0], false) := by decide +kernel
/-- R152, the example: `ser f1, 0` on `p − 1` faults with cause 2. -/
theorem test_ser_faults : (nextOf (exec (.ser 1 false) (regs pMinus1 zero))).map (fun t => (t.b, t.status)) =
    some ([], { busy := false, fault := true, fcause := 2 }) := by decide +kernel

/-- A state with the given bytes from `B[0]` on. -/
def bytesFrom (l : List Byte) : State := State.reset.writeB (Memory.writeBytes [] 0 l)

/-- R153, corner cases 2 and 3: the bytes of `p` are rejected, those of `p − 1` accepted with `with_hibit` = 1 only. -/
theorem test_deser_range :
    maskAfter (.deser 1 true 0) (bytesFrom (List.replicate 28 0xff ++ [0xfe] ++ List.replicate 27 0xff)) = some all0 ∧
    maskAfter (.deser 1 true 0) (bytesFrom pMinus1Bytes) = some all1 ∧
    maskAfter (.deser 1 false 0) (bytesFrom pMinus1Bytes) = some all0 := by decide +kernel
/-- R153, corner cases 5 and 6: the final byte masked. -/
theorem test_deser_mask :
    (nextOf (exec (.deser 1 false 0xff) (bytesFrom (List.replicate 56 0xff)))).map (fun t => ((t.reg 1)[7], t.mask)) =
      some (0x00ffffffffffff, all1) ∧
    maskAfter (.deser 1 true 0x80) (bytesFrom (List.replicate 56 0 ++ [0x80])) = some all1 ∧
    maskAfter (.deser 1 true 0x00) (bytesFrom (List.replicate 56 0 ++ [0x80])) = some all0 ∧
    maskAfter (.deser 1 true 0x80) (bytesFrom (List.replicate 56 0 ++ [0x01])) = some all0 := by decide +kernel

/-! ## Steps -/

/-- The word of `wred f1` placed after reset is the command the next step runs. -/
theorem test_placed_word_runs : (nextOf (step (State.withFetchWord (State.reset.writeReg 1 #v[0, 0, 0, 0, 0, 0, 0,
    0x100000000000000]) 64 0x0000000000000103))).map (fun t => (t.reg 1, t.status.busy)) =
    some (#v[1, 0, 0, 0, 1, 0, 0, 0], false) := by decide +kernel

/-- A host's illegal issue faults with cause 1 (R65). -/
theorem test_illegal_issue : (nextOf (step (hosted [.issue 0]))).map (fun t => t.status) =
    some { busy := false, fault := true, fcause := 1 } := by decide

/-- `STATUS` of a BUSY engine reads 1 (10_state.md R24). -/
theorem test_status_busy : (nextOf (step (busyWith 0x0000000000000103 1 [.readStatus]))).map (fun t => t.reply) =
    some (some (.word 1)) := by decide

/-- `STATUS` after a fault of cause 1 reads `0x12` (10_state.md R24). -/
theorem test_status_faulted : (nextOf (step (faultedWith [.busRead 0x448 8]))).map (fun t => t.reply) =
    some (some (.word 0x12)) := by decide

/-! ## Hypotheses of the statements that can be met -/

theorem witness_DecodeInvertsEncode : (Instr.sqrn 15 0 1).wf = true ∧ (Instr.deser 15 true 255).wf = true := by decide

theorem witness_LegalWordIsItsCommandsEncoding : decode 0xffff00fe0000f00b = .ok (.mulw 0 15 0xffff00fe) ∧
    decode 0x0000ff010000010e = .ok (.deser 1 true 0xff) := by decide

theorem witness_IllegalWordsFault : IllegalByR65 0x0f ∧ IllegalByR65 0xff ∧ IllegalByR65 0x000000000000000a ∧
    IllegalByR65 0x0000000080000001 ∧ IllegalByR65 0x000000020000000e ∧
    (hosted [.issue 0x0f]).phase = .idle ∧ (hosted [.issue 0x0f]).host = .issue 0x0f :: [] :=
  ⟨by decide, by decide, by decide, by decide, by decide, by decide, by decide⟩

theorem witness_LegalIssueMakesBusy : (hosted [.issue 0x0000000000021301]).phase = .idle ∧
    decode 0x0000000000021301 = .ok (.add 3 1 2) := by decide

theorem witness_StepRunsTheCommandInFlight : (busyWith 0x0000000000021301 0 [.wait]).phase = .busy ∧
    (busyWith 0x0000000000021301 0 [.wait]).left = 0 ∧
    (busyWith 0x0000000000021301 0 [.wait]).host.head? ≠ some .reset ∧
    decode (busyWith 0x0000000000021301 0 [.wait]).cmd = .ok (.add 3 1 2) := by decide

theorem witness_PlacedWordRunsNext : (Instr.add 3 1 2).wf = true ∧ IllegalByR65 0x000000000000120a := by decide

theorem witness_WaitedCommandCompletes :
    (hosted [.issue 0x0000000000021301, .wait]).phase = .idle ∧ decode 0x0000000000021301 = .ok (.add 3 1 2) := by decide

theorem witness_DurationDependsOnOpcodeAndCount :
    bitRange 0x000000df0000120a 7 0 = bitRange 0x000000df0000340a 7 0 ∧ bitRange 0x000000df0000120a 7 0 = 0x0a ∧
    bitRange 0x000000df0000120a 39 32 = bitRange 0x000000df0000340a 39 32 := by decide

theorem witness_BusyStepsChangeNothing : (busyWith 0x0000000000000103 1 [.wait]).phase = .busy ∧
    (busyWith 0x0000000000000103 1 [.wait]).left ≠ 0 ∧
    (busyWith 0x0000000000000103 1 [.wait]).host.head? ≠ some .reset ∧
    ∃ t, step (busyWith 0x0000000000000103 1 [.wait]) = .next t :=
  ⟨by decide, by decide, by decide, _, rfl⟩

theorem witness_BusyHazardHasNoStep : (busyWith 0x0000000000000103 1 [.readMask]).phase = .busy ∧
    (busyWith 0x0000000000000103 1 [.readMask]).left ≠ 0 ∧ HostOp.readMask.access = .ok (.read .mask) ∧
    (HostOp.writeByte 56 1).access = .ok (.write (.byte 56) 1) ∧ (HostOp.issue 1).access = .ok (.write .cmd 1) ∧
    HostOp.readStatus.access = .ok (.read .status) := by decide

theorem witness_FaultIsFinal : (faultedWith [.issue 1, .readMask]).phase = .faulted ∧
    HostOp.reset ∉ (faultedWith [.issue 1, .readMask]).host ∧
    ∃ t, Host.Core.run Sys2Proof.core 2 (faultedWith [.issue 1, .readMask]) = .next t :=
  ⟨by decide, by decide, _, rfl⟩

theorem witness_FaultedIgnoresWrites : (faultedWith [.writeLimb 15 7 1]).phase = .faulted ∧
    (HostOp.writeLimb 15 7 1).access = .ok (.write (.limb 15 7) 1) ∧
    (HostOp.issue 0x103).access = .ok (.write .cmd 0x103) := by decide

theorem witness_ResetClearsEverything : (busyWith 0x0000000000000103 0 [.reset]).host = .reset :: [] ∧
    (faultedWith [.reset]).host = .reset :: [] ∧ (busyWith 0x0000000000000103 1 []).host = [] ∧
    (busyWith 0x0000000000000103 1 []).left ≠ 0 := by decide

theorem witness_HostLimbAccess : (hosted [.writeLimb 15 7 1]).phase = .idle ∧
    (faultedWith [.readLimb 15 7]).phase ≠ .busy := by decide

theorem witness_HostByteAccess : (hosted [.writeByte 56 1]).b.wf ∧ (hosted [.writeByte 56 1]).phase = .idle ∧
    (faultedWith [.readByte 0]).b.wf ∧ (faultedWith [.readByte 0]).phase ≠ .busy := by decide

theorem witness_HostReadsMaskAndStatus : (hosted [.readMask]).phase ≠ .busy ∧ (faultedWith [.readStatus]).phase ≠ .busy ∧
    (busyWith 0x0000000000000103 1 [.readStatus]).phase = .busy ∧
    (busyWith 0x0000000000000103 1 [.readStatus]).left ≠ 0 ∧ (hosted [.wait]).phase ≠ .busy ∧
    (faultedWith [.wait]).phase ≠ .busy ∧ (busyWith 0x0000000000000103 1 [.wait]).phase = .busy ∧
    (busyWith 0x0000000000000103 1 [.wait]).left ≠ 0 := by decide

theorem witness_BusReachesThePorts : (hosted []).phase ≠ .busy ∧ (busyWith 0x0000000000000103 1 []).left ≠ 0 ∧
    busPort defaultAddrMap 0x3f8 8 = .ok (.limb 15 7) ∧ busPort defaultAddrMap 0x438 1 = .ok (.byte 56) := by decide

/-- The offsets where the clauses of R45 and R47 meet. -/
theorem witness_BusRefusesBadAccesses : (hosted []).phase ≠ .busy ∧
    busPort defaultAddrMap 0x3ff 8 = .error .misaligned ∧ busPort defaultAddrMap 0x000 4 = .error .badWidth ∧
    busPort defaultAddrMap 0x400 8 = .error .badWidth ∧ busPort defaultAddrMap 0x438 2 = .error .badWidth ∧
    busPort defaultAddrMap 0x439 1 = .error .reservedAddress ∧ busPort defaultAddrMap 0x43f 8 = .error .reservedAddress ∧
    busPort defaultAddrMap 0x440 1 = .error .badWidth ∧ busPort defaultAddrMap 0x457 8 = .error .misaligned ∧
    busPort defaultAddrMap 0x458 8 = .error .reservedAddress := by decide

theorem witness_RippleAndFold : (List.replicate 8 (2 ^ 128 - 1)).length = 8 ∧
    (∀ x ∈ List.replicate 8 (2 ^ 128 - 1), x < 2 ^ 128) ∧ (∀ x ∈ List.replicate 8 (2 ^ 64 - 1), x < 2 ^ 64) ∧
    (∀ x ∈ List.replicate 8 m56, x ≤ m56) ∧ WR largestWR := by decide +kernel

theorem witness_StrongReductionNeverAsserts : CANON zero ∧ residue zero = residue pLimbs := by decide +kernel

theorem witness_AddResult : WR ((regs largestWR pMinus1).reg 1) ∧ WR ((regs largestWR pMinus1).reg 2) := by decide +kernel

theorem witness_SubResult : WR ((regs zero largestWR).reg 1) ∧ WR ((regs zero largestWR).reg 2) := by decide +kernel

theorem witness_WredResult : CANON ((regs pMinus1 pLimbs).reg 1) ∧ (regs pMinus1 pLimbs).reg 2 = pLimbs := by
  decide +kernel

theorem witness_SredResult : ∃ t, exec (.sred 1) (regs pLimbs zero) = .next t := ⟨_, exec_sred 1 _⟩

theorem witness_HibitResult : WR ((regs largestWR halfPlus1).reg 1) ∧ WR ((regs largestWR halfPlus1).reg 2) := by
  decide +kernel

theorem witness_EqResult : WR ((regs pLimbs zero).reg 1) ∧ WR ((regs pLimbs zero).reg 2) := by decide +kernel

theorem witness_CoefficientStage : WR largestWR ∧ WR pMinus1 := by decide +kernel

theorem witness_MulResult : WR ((regs largestWR largestWR).reg 1) ∧ WR ((regs largestWR largestWR).reg 2) := by
  decide +kernel

theorem witness_SqrResult : WR ((regs largestWR zero).reg 1) := by decide +kernel

theorem witness_SqrnResult : (1 : BitVec 8) ≠ 0 ∧ (255 : BitVec 8) ≠ 0 ∧ WR ((regs largestWR zero).reg 1) := by
  decide +kernel

theorem witness_IsrResult : WR ((regs largestWR zero).reg 1) := by decide +kernel

theorem witness_IsrSucceedsOnNonzeroSquares : WR ((regs (small 4) zero).reg 1) ∧
    ∃ t, exec (.isr 2 1) (regs (small 4) zero) = .next t := ⟨by decide +kernel, _, exec_isr 2 1 _⟩

theorem witness_IsrSucceedsOnOneOfTwoNegatives : WR ((regs (small 1) pMinus1).reg 1) ∧
    WR ((regs (small 1) pMinus1).reg 2) ∧ residue ((regs (small 1) pMinus1).reg 1) ≠ 0 ∧
    residue ((regs (small 1) pMinus1).reg 1) + residue ((regs (small 1) pMinus1).reg 2) = modulus ∧
    (∃ t, exec (.isr 3 1) (regs (small 1) pMinus1) = .next t) ∧
    ∃ u, exec (.isr 4 2) (regs (small 1) pMinus1) = .next u :=
  ⟨by decide +kernel, by decide +kernel, by decide +kernel, by decide +kernel, ⟨_, exec_isr 3 1 _⟩, _, exec_isr 4 2 _⟩

theorem witness_IsrCornerCases : WR ((regs pLimbs (small 4)).reg 1) ∧ WR ((regs pLimbs (small 4)).reg 2) ∧
    residue ((regs pLimbs (small 4)).reg 1) = 0 ∧ residue ((regs pLimbs (small 4)).reg 2) = 4 ∧
    WR ((regs pMinus1 (small 4)).reg 1) ∧ residue ((regs pMinus1 (small 4)).reg 1) = modulus - 1 ∧
    ∃ t, exec (.isr 3 1) (regs pMinus1 (small 4)) = .next t :=
  ⟨by decide +kernel, by decide +kernel, by decide +kernel, by decide +kernel, by decide +kernel, by decide +kernel, _,
    exec_isr 3 1 _⟩

theorem witness_SerResult : (regs halfP zero).b.wf ∧ residue ((regs halfP zero).reg 1) ≤ halfModulus := by decide +kernel

theorem witness_SerFaultsOnHibit : halfModulus < residue ((regs halfPlus1 zero).reg 1) := by decide +kernel

theorem witness_DeserResult : (bytesFrom pMinus1Bytes).b.deserAccepts true 0 = true ∧
    (bytesFrom pMinus1Bytes).b.deserAccepts false 0 = false := by decide +kernel

theorem witness_SerializationRoundTrips : (regs halfP halfPlus1).b.wf ∧
    residue ((regs halfP halfPlus1).reg 1) ≤ halfModulus ∧ halfModulus < residue ((regs halfP halfPlus1).reg 2) ∧
    (∃ t, exec (.deser 1 false 0xff) (bytesFrom (List.replicate 56 0xff)) = .next t ∧ t.mask = all1) ∧
    ∃ t, exec (.deser 1 true 0x80) (bytesFrom (List.replicate 56 0 ++ [0x80])) = .next t ∧ t.mask = all1 :=
  ⟨by decide +kernel, by decide +kernel, by decide +kernel, ⟨_, exec_deser 1 false 0xff _, by decide +kernel⟩, _,
    exec_deser 1 true 0x80 _, by decide +kernel⟩

theorem witness_HibitPredictsSerFault : WR ((regs halfPlus1 zero).reg 1) ∧
    (regs halfPlus1 zero).status.fault = false ∧ (∃ t, exec (.hibit 1) (regs halfPlus1 zero) = .next t) ∧
    ∃ u, exec (.ser 1 false) (regs halfPlus1 zero) = .next u :=
  ⟨by decide +kernel, by decide +kernel, ⟨_, exec_hibit 1 _⟩, _, exec_ser 1 false _⟩

theorem witness_EveryCommandCompletes : (Instr.ser 1 false).wf = true ∧
    ∀ ra, Instr.ser 1 false = .ser ra false → residue ((regs halfP zero).reg ra) ≤ halfModulus :=
  ⟨rfl, fun ra h => by
    have h1 : (1 : Reg) = ra := by injection h
    subst h1
    decide +kernel⟩

theorem witness_OnlySerFaults : ∃ t, exec (.ser 1 false) (regs halfPlus1 zero) = .next t ∧ t.status.fault = true ∧
    (regs halfPlus1 zero).status.fault = false :=
  ⟨_, exec_ser 1 false _, by decide +kernel, by decide +kernel⟩

theorem witness_RegisterCommandFrame : (Instr.wred 1).wf = true ∧ (Instr.wred 1).destination = some 1 ∧
    (Instr.wred 1).writesMask = false ∧ ∃ t, exec (.wred 1) (regs largestWR zero) = .next t :=
  ⟨rfl, rfl, rfl, _, exec_wred 1 _⟩

theorem witness_PredicateFrame : (Instr.eq 1 2).destination = none ∧ (Instr.eq 1 2).writesMask = true ∧
    ∃ t, exec (.eq 1 2) (regs pLimbs zero) = .next t := ⟨rfl, rfl, _, exec_eq 1 2 _⟩

theorem witness_IsrAndDeserFrame : (Instr.isr 1 1).destination = some 1 ∧ (Instr.isr 1 1).writesMask = true ∧
    (∃ t, exec (.isr 1 1) (regs (small 4) zero) = .next t) ∧
    (Instr.deser 15 true 0).destination = some 15 ∧ (Instr.deser 15 true 0).writesMask = true ∧
    ∃ t, exec (.deser 15 true 0) (bytesFrom pMinus1Bytes) = .next t :=
  ⟨rfl, rfl, ⟨_, exec_isr 1 1 _⟩, rfl, rfl, _, exec_deser 15 true 0 _⟩

theorem witness_SerFrame : (bytesFrom pMinus1Bytes).b.wf ∧ (Instr.ser 1 true).storedBytes = 57 ∧
    (Instr.ser 1 false).storedBytes = 56 ∧ ∃ t, exec (.ser 1 true) (bytesFrom pMinus1Bytes) = .next t :=
  ⟨by decide +kernel, rfl, rfl, _, exec_ser 1 true _⟩

theorem witness_MaskLifetime : (Instr.ser 1 true).writesMask = false ∧ (Instr.lobit 1).writesMask = true ∧
    (∃ t, exec (.ser 1 true) (regs pMinus1 zero) = .next t) ∧ ∃ t, exec (.lobit 1) (regs pMinus1 zero) = .next t :=
  ⟨rfl, rfl, ⟨_, exec_ser 1 true _⟩, _, exec_lobit 1 _⟩

/-- Two states that differ in `f2`, `f3` and `MASK`, with `f1` and `STATUS` the same. -/
theorem witness_ResultsDependOnSourcesOnly : (∀ r ∈ (Instr.hibit 1).sources,
      (regs halfP zero).reg r = ((regs halfP pLimbs).writeMask all1).reg r) ∧ (regs halfP zero).b.wf ∧
    ((regs halfP pLimbs).writeMask all1).b.wf ∧
    (regs halfP zero).status = ((regs halfP pLimbs).writeMask all1).status ∧
    (Instr.deser 1 false 0).readsBuffer = true := by decide +kernel

theorem witness_StepKeepsInvariant : (hosted [.issue 0x0000000000021301]).Inv ∧
    ∃ t, step (hosted [.issue 0x0000000000021301]) = .next t :=
  ⟨⟨by decide, by decide, by decide, by decide, by decide⟩, _, rfl⟩

/-- The largest limbs of R194 that keep the precondition, in limb 4 and in limb 7. -/
theorem witness_StepKeepsWeakReduction : (hosted [.writeLimb 15 4 0x01000000000000ff]).allWR ∧
    (HostOp.writeLimb 15 4 0x01000000000000ff).keepsWR ∧ (HostOp.writeLimb 15 7 0x00ffffffffffffff).keepsWR ∧
    ¬(HostOp.writeLimb 15 4 0x0100000000000100).keepsWR ∧ ¬(HostOp.writeLimb 15 7 0x0100000000000000).keepsWR ∧
    (∀ op, (hosted [.writeLimb 15 4 0x01000000000000ff]).host.head? = some op → op.keepsWR) ∧
    ∃ t, step (hosted [.writeLimb 15 4 0x01000000000000ff]) = .next t :=
  have h : (0x01000000000000ff : Word).toNat ≤ m56 + 256 := by decide
  ⟨by decide +kernel, h, (by decide : (0x00ffffffffffffff : Word).toNat ≤ m56),
    (by decide : ¬(0x0100000000000100 : Word).toNat ≤ m56 + 256), (by decide : ¬(0x0100000000000000 : Word).toNat ≤ m56),
    fun op e => by cases Option.some.inj e; exact h, _, rfl⟩

end Sys2Proof.Tests
end

section
/-! PROOFS. Euler's criterion on residues, and with it the success of ISR (spec 43_isr.md R142, 00_scope.md R2). -/

namespace Sys2Proof

/-! ## Squares mod a prime, as statements about natural numbers -/

/-- A reduced number is a square in `ZMod p` when some natural number's square has it as its residue. -/
theorem isSquare_natCast_iff {p v : ℕ} [NeZero p] (hv : v < p) :
    IsSquare (v : ZMod p) ↔ ∃ y, y * y % p = v := by
  constructor
  · rintro ⟨r, hr⟩
    have hcast : ((r.val * r.val : ℕ) : ZMod p) = (v : ℕ) := by
      rw [Nat.cast_mul, ZMod.natCast_zmod_val, hr]
    exact ⟨r.val, ((ZMod.natCast_eq_natCast_iff' _ _ _).mp hcast).trans (Nat.mod_eq_of_lt hv)⟩
  · rintro ⟨y, rfl⟩
    exact ⟨y, by rw [ZMod.natCast_mod, Nat.cast_mul]⟩

/-- Euler's criterion on reduced numbers; 0 has the power 0, so it is told apart from the non-zero squares. -/
theorem pow_half_mod_eq_one_iff {p v : ℕ} (hp : p.Prime) (hv : v < p) :
    v ^ (p / 2) % p = 1 ↔ v ≠ 0 ∧ ∃ y, y * y % p = v := by
  have : Fact p.Prime := ⟨hp⟩
  obtain rfl | hv0 := eq_or_ne v 0
  · have hhalf : p / 2 ≠ 0 := (Nat.div_pos hp.two_le (by decide)).ne'
    simp [zero_pow hhalf]
  · have hcast0 : (v : ZMod p) ≠ 0 := fun h =>
      Nat.not_dvd_of_pos_of_lt (Nat.pos_of_ne_zero hv0) hv ((ZMod.natCast_eq_zero_iff v p).mp h)
    calc v ^ (p / 2) % p = 1
        ↔ v ^ (p / 2) % p = 1 % p := by rw [Nat.mod_eq_of_lt hp.one_lt]
      _ ↔ (v : ZMod p) ^ (p / 2) = 1 := by rw [← ZMod.natCast_eq_natCast_iff', Nat.cast_pow, Nat.cast_one]
      _ ↔ IsSquare (v : ZMod p) := (ZMod.euler_criterion p hcast0).symm
      _ ↔ ∃ y, y * y % p = v := isSquare_natCast_iff hv
      _ ↔ v ≠ 0 ∧ ∃ y, y * y % p = v := (and_iff_right hv0).symm

/-- Euler's criterion mod `p`, with the exponent `(p − 1)/2` of R142. -/
theorem pow_halfModulus_eq_one_iff {v : ℕ} (hv : v < modulus) :
    v ^ halfModulus % modulus = 1 ↔ v ≠ 0 ∧ ∃ y, y * y % modulus = v := by
  have hhalf : halfModulus = modulus / 2 := by decide +kernel
  rw [hhalf]
  exact pow_half_mod_eq_one_iff modulus_prime hv

/-- Steps 25 and 26 of R141 on residues: `(p − 3)/4` doubled and increased is `(p − 1)/2`. -/
theorem pow_isrExponent_sq_mul (v : ℕ) :
    (v ^ isrExponent % modulus) ^ 2 * v % modulus = v ^ halfModulus % modulus := by
  have hexp : isrExponent * 2 + 1 = halfModulus := by decide +kernel
  rw [← hexp, pow_succ v, pow_mul, Nat.mul_mod, ← Nat.pow_mod, ← Nat.mul_mod]

end Sys2Proof

namespace Sys2Proof.Machine

/-! ## ISR on a weakly reduced operand -/

/-- On a weakly reduced operand the mask of ISR is Euler's criterion on its residue (R142). -/
theorem exec_isr_of_WR (rd : Reg) {ra : Reg} {s : State} (h : WR (s.reg ra)) : exec (.isr rd ra) s =
    .next ((s.writeReg rd (isrCandidate (s.reg ra))).writeMask
      (maskOf (residue (s.reg ra) ^ halfModulus % modulus == 1))).retire := by
  simp only [exec, execIsr, eqV_isrCheck h, except_map_ok, conclude_ok]

theorem isr_mask_eq_all1_iff {rd ra : Reg} {s t : State} (h : WR (s.reg ra)) (ht : exec (.isr rd ra) s = .next t) :
    t.mask = all1 ↔ residue (s.reg ra) ^ halfModulus % modulus = 1 := by
  obtain rfl := next_inj ((exec_isr_of_WR rd h).symm.trans ht)
  rw [State.retire_mask, State.writeMask_mask, maskOf_eq_all1, beq_iff_eq]

theorem residue_reg_isr {rd ra : Reg} {s t : State} (h : WR (s.reg ra)) (ht : exec (.isr rd ra) s = .next t) :
    residue (t.reg rd) = residue (s.reg ra) ^ isrExponent % modulus := by
  obtain rfl := next_inj ((exec_isr_of_WR rd h).symm.trans ht)
  rw [State.reg_retire, State.reg_writeMask, State.reg_writeReg_same, (isrCandidate_spec h).power]

/-- Settles O38: the mask is Euler's criterion, which by the primality of `p` picks out the non-zero squares, and the
re-squared candidate times the operand is the power that Euler's criterion compares with 1. -/
theorem isrSucceedsOnNonzeroSquares : Obligations.IsrSucceedsOnNonzeroSquares := by
  intro rd ra s t h ht
  have hmask := isr_mask_eq_all1_iff h ht
  constructor
  · rw [hmask, pow_halfModulus_eq_one_iff (residue_lt _)]
  · intro hsuccess
    rw [residue_reg_isr h ht, pow_isrExponent_sq_mul, hmask.mp hsuccess]

end Sys2Proof.Machine
end

section
/-! PROOFS. The state of the engine (spec 10_state.md): the layout of `STATUS`, what each phase leaves as it is, the life
of `MASK`, and the invariant, which the state after reset meets and every step keeps. -/

namespace Sys2Proof

/-! ## Commands that words decode to -/

theorem wf_of_checked {rsv regs imm : Bool} {i j : Instr} (h : checked rsv regs imm i = .ok j) : j.wf = true := by
  obtain ⟨_, _, _, hwf, rfl⟩ := checked_eq_ok.mp h
  exact hwf

/-- A command that a word decodes to is well-formed (R65, R72). -/
theorem wf_of_decode {w : Word} {i : Instr} (h : decode w = .ok i) : i.wf = true := by
  simp only [decode] at h
  split at h
  on_goal 15 => exact nomatch h
  all_goals exact wf_of_checked h

end Sys2Proof

namespace Sys2Proof.Machine

/-! ## The layout of `STATUS` -/

/-- Every bit of the `STATUS` word (R24). -/
theorem Status.getLsbD_word (t : Status) (i : Nat) : t.word.getLsbD i =
    if i = 0 then t.busy else if i = 1 then t.fault else if i < 4 then false else t.fcause.getLsbD (i - 4) := by
  unfold Status.word
  simp only [BitVec.getLsbD_append]
  match i with
  | 0 => simp
  | 1 => simp
  | 2 => simp
  | 3 => simp
  | i + 4 => simpa using BitVec.lt_of_getLsbD

/-- Settles O17, by the value of every bit of the word. -/
theorem statusLayout : Obligations.StatusLayout := by
  intro t
  refine ⟨Status.getLsbD_word t 0, Status.getLsbD_word t 1, ?_, ?_, ?_⟩
  all_goals
    apply BitVec.eq_of_getLsbD_eq
    intro i hi
    rw [BitVec.getLsbD_extractLsb', Status.getLsbD_word]
  · simp [hi, show 4 + i ≠ 1 by omega]
  · simp [show 2 + i ≠ 1 by omega, show 2 + i < 4 by omega]
  · simp [show 8 + i ≠ 1 by omega, BitVec.getLsbD_of_ge t.fcause (8 + i - 4) (by omega)]

/-! ## Phases in which the machine stays as it is -/

/-- Settles O14: in FAULTED a write is served without a reply. -/
theorem faultedIgnoresWrites : Obligations.FaultedIgnoresWrites := by
  intro s op rest p v hphase hhost haccess
  rw [step_served (by simp [hphase]) hhost haccess (by simp), hphase]
  rfl

/-- Settles O11: such a step lets time pass and answers the host. -/
theorem busyStepsChangeNothing : Obligations.BusyStepsChangeNothing := by
  intro s t hphase hleft hhost hstep
  rcases step_cases hstep with ⟨rest, hreset, _⟩ | ⟨_, hdone, _⟩ | ⟨_, _, rest, r, rfl⟩ | ⟨hout, _⟩ | ⟨hidle, _⟩
  · simp [hreset] at hhost
  · exact absurd hdone hleft
  · exact ⟨rfl, rfl, rfl, rfl, rfl, Nat.sub_add_cancel (Nat.pos_of_ne_zero hleft)⟩
  · exact absurd hphase hout
  · simp [hphase] at hidle

/-! ## The life of `MASK` -/

/-- The ill-formed SQRN faults. -/
theorem exec_sqrn_zero (rd ra : Reg) (s : State) : exec (.sqrn rd ra 0) s = .next (s.enterFault .illegalCmd) := rfl

/-- Only SQRN with `n` = 0 is ill-formed (R65). -/
theorem eq_sqrn_zero_of_not_wf {i : Instr} (h : ¬ i.wf = true) : ∃ rd ra, i = .sqrn rd ra 0 := by
  cases i with
  | sqrn rd ra n => exact ⟨rd, ra, by simpa [Instr.wf] using h⟩
  | _ => exact absurd rfl h

theorem mask_exec_ser {ra : Reg} {h : Bool} {s t : State} (ht : exec (.ser ra h) s = .next t) : t.mask = s.mask := by
  obtain rfl := next_inj ((exec_ser ra h s).symm.trans ht)
  split <;> rfl

/-- Settles O52, by the shape of each command's next state. -/
theorem maskLifetime : Obligations.MaskLifetime := by
  intro i s t ht
  by_cases hwf : i.wf = true
  · rcases exec_cases i s hwf with ⟨rd, v, _, hw, _, _, he⟩ | ⟨m, _, hw, _, hm, he⟩ |
      ⟨rd, v, m, _, hw, _, _, hm, he⟩ | ⟨ra, h, rfl⟩
    · obtain rfl := next_inj (he.symm.trans ht)
      simp [hw]
    · obtain rfl := next_inj (he.symm.trans ht)
      simpa [hw] using hm
    · obtain rfl := next_inj (he.symm.trans ht)
      simpa [hw] using hm
    · exact ⟨fun _ => mask_exec_ser ht, nofun⟩
  · obtain ⟨rd, ra, rfl⟩ := eq_sqrn_zero_of_not_wf hwf
    obtain rfl := next_inj ((exec_sqrn_zero rd ra s).symm.trans ht)
    exact ⟨fun _ => rfl, nofun⟩

/-! ## The invariant, one rule per state operation -/

/-- Settles O54, field by field: the empty buffer, `MASK` at `ALL0`, IDLE with nothing in flight (R28). -/
theorem resetMeetsInvariant : Obligations.ResetMeetsInvariant where
  wf := Memory.wf_nil
  inBuffer := by simp [State.reset]
  mask := .inl rfl
  status := by simp [State.reset, Status.legal]
  flight := by simp [State.reset, State.flightLegal]

theorem State.inv_applyReset (rest : List HostOp) : (State.applyReset rest).Inv :=
  { resetMeetsInvariant with }

section
variable {s : State} (hs : s.Inv)
include hs

theorem State.Inv.served (rest : List HostOp) (r : Option Reply) : (s.served rest r).Inv := { hs with }

theorem State.Inv.writeReg (r : Reg) (v : Elem) : (s.writeReg r v).Inv := { hs with }

theorem State.Inv.writeMask {m : Word} (hm : m = all0 ∨ m = all1) : (s.writeMask m).Inv := { hs with mask := hm }

theorem State.Inv.writeB {b : Memory} (hwf : b.wf) (hin : b.inBuffer) : (s.writeB b).Inv :=
  { hs with wf := hwf, inBuffer := hin }

/-- Time passes only for a BUSY engine: out of BUSY the invariant holds `left` at 0. -/
theorem State.Inv.elapse (hp : s.phase = .busy) : s.elapse.Inv :=
  { hs with flight := ⟨hs.flight.1, by simp [(State.phase_eq_busy.mp hp).2]⟩ }

theorem State.Inv.retire : s.retire.Inv :=
  { hs with
    status := ⟨by simp, hs.status.2⟩
    flight := by simp [State.flightLegal] }

/-- The causes 1 and 2 are the only ones the invariant allows (40_addsub_reduce.md R98). -/
theorem State.Inv.enterFault {c : FaultCause} (hc : c = .illegalCmd ∨ c = .assertSerHibit) : (s.enterFault c).Inv :=
  { hs with
    status := by rcases hc with rfl | rfl <;> simp [Status.legal, FaultCause.code]
    flight := by simp [State.flightLegal] }

theorem State.Inv.issueCommand (hp : s.phase = .idle) (w : Word) : (s.issueCommand w).Inv := by
  unfold State.issueCommand
  split
  · exact hs.enterFault (.inl rfl)
  next i hd =>
    have hfault : s.status.fault = false := (State.phase_eq_idle.mp hp).1
    have hcause := hs.status.2.1 hfault
    exact { hs with
      status := by simp [Status.legal, hfault, hcause]
      flight := by simp [State.flightLegal, hd, Except.toOption] }

theorem State.Inv.writePort (hp : s.phase = .idle) (p : Port) (v : Word) : (s.writePort p v).Inv := by
  cases p with
  | limb r i => exact hs.writeReg r _
  | byte k => exact hs.writeB (Memory.write_wf hs.wf _ _) (Memory.write_inBuffer hs.inBuffer k.isLt _)
  | cmd => exact hs.issueCommand hp v
  | status => exact hs
  | mask => exact hs

/-- A completing or faulting command keeps the invariant. -/
theorem State.Inv.exec {i : Instr} (hwf : i.wf = true) {t : State} (ht : exec i s = .next t) : t.Inv := by
  rcases exec_cases i s hwf with ⟨rd, v, _, _, _, _, he⟩ | ⟨m, _, _, _, hm, he⟩ | ⟨rd, v, m, _, _, _, _, hm, he⟩ |
    ⟨ra, h, rfl⟩
  · obtain rfl := next_inj (he.symm.trans ht)
    exact (hs.writeReg rd v).retire
  · obtain rfl := next_inj (he.symm.trans ht)
    exact (hs.writeMask hm).retire
  · obtain rfl := next_inj (he.symm.trans ht)
    exact ((hs.writeReg rd v).writeMask hm).retire
  · obtain rfl := next_inj ((exec_ser ra h s).symm.trans ht)
    split
    · exact hs.enterFault (.inr rfl)
    · exact (hs.writeB (serBuffer_wf hs.wf _ h) (serBuffer_inBuffer hs.inBuffer _ h)).retire

end

/-- Settles O55: each thing a step can do (`step_cases`) keeps the invariant by the rule of its operation. -/
theorem stepKeepsInvariant : Obligations.StepKeepsInvariant := by
  intro s t hs hstep
  rcases step_cases hstep with ⟨rest, _, rfl⟩ | ⟨_, _, i, hd, he⟩ | ⟨hp, _, rest, r, rfl⟩ | ⟨_, r, rfl⟩ |
    ⟨hp, op, rest, p, v, _, _, rfl⟩
  · exact State.inv_applyReset rest
  · exact (hs.served s.host none).exec (wf_of_decode hd) he
  · exact (hs.elapse hp).served rest r
  · exact hs.served s.host.tail r
  · exact (hs.writePort hp p v).served rest none

end Sys2Proof.Machine
end

section
/-! PROOFS. The host port (spec 20_memory.md): what a read, a write and a refused access do in each phase, the default
address map by ranges of offsets, and the memory view through both. -/

namespace Sys2Proof.Machine

/-! ## A limb after a limb write -/

@[simp] theorem State.readLimb_writeLimb_same (s : State) (r : Reg) (i : LimbIx) (v : Word) :
    (s.writeLimb r i v).readLimb r i = v := by
  simp [State.readLimb, State.writeLimb]

theorem State.readLimb_writeLimb_ne (s : State) {r q : Reg} {i j : LimbIx} (v : Word) (h : ¬(q = r ∧ j = i)) :
    (s.writeLimb r i v).readLimb q j = s.readLimb q j := by
  unfold State.readLimb State.writeLimb
  by_cases hq : q = r
  · subst hq
    have hij : i.val ≠ j.val := fun e => h ⟨rfl, Fin.ext e.symm⟩
    rw [State.reg_writeReg_same, Vector.getElem_set_ne _ _ hij]
  · rw [State.reg_writeReg_ne _ _ _ _ hq]

/-! ## The step that serves an access -/

section
variable {s : State} {op : HostOp} {rest : List HostOp}

/-- An operation that makes no access has no step in any phase (R45, R47). -/
theorem step_refused {r : Refusal} (ht : s.phase = .busy → s.left ≠ 0) (hh : s.host = op :: rest)
    (ha : op.access = .error r) : step s = .refused r := by
  have hdue : ¬(s.phase = .busy ∧ s.left = 0) := fun ⟨hp, hl⟩ => ht hp hl
  simp only [step, advance, hh]
  split
  next heq =>
    obtain ⟨rfl, rfl⟩ := List.cons.inj heq
    cases ha
  next => simp [hdue, hostTurn, hh, ha]

theorem step_read {p : Port} (hp : s.phase ≠ .busy) (hh : s.host = op :: rest) (ha : op.access = .ok (.read p)) :
    step s = .next (s.served rest (some (s.readPort p))) := by
  rw [step_served hp hh ha nofun]
  cases s.phase <;> rfl

theorem step_write_idle {p : Port} {v : Word} (hp : s.phase = .idle) (hh : s.host = op :: rest)
    (ha : op.access = .ok (.write p v)) : step s = .next ((s.writePort p v).served rest none) := by
  rw [step_served (by simp [hp]) hh ha nofun, hp]
  rfl

/-- A write that changes nothing in IDLE changes nothing out of BUSY: FAULTED ignores every write. -/
theorem step_write_ignored {p : Port} {v : Word} (hp : s.phase ≠ .busy) (hw : s.writePort p v = s)
    (hh : s.host = op :: rest) (ha : op.access = .ok (.write p v)) : step s = .next (s.served rest none) := by
  cases hq : s.phase with
  | idle => rw [step_write_idle hq hh ha, hw]
  | busy => exact absurd hq hp
  | faulted => exact faultedIgnoresWrites s op rest p v hq hh ha

end

/-! ## A step sees of the host's next operation its access only -/

theorem idleAccess_with_host (a : Access) (rest l : List HostOp) (s : State) :
    idleAccess a rest { s with host := l } = idleAccess a rest s := by
  match a with
  | .read p => cases p <;> rfl
  | .write .cmd w =>
    simp only [idleAccess, State.writePort, State.issueCommand]
    cases decode w <;> rfl
  | .write (.limb _ _) _ | .write (.byte _) _ | .write .status _ | .write .mask _ => rfl
  | .reset | .wait | .pause => rfl

theorem faultedAccess_with_host (a : Access) (rest l : List HostOp) (s : State) :
    faultedAccess a rest { s with host := l } = faultedAccess a rest s := by
  match a with
  | .read p => cases p <;> rfl
  | .write _ _ | .reset | .wait | .pause => rfl

theorem busyAccess_with_host (a : Access) (rest l : List HostOp) (s : State) :
    busyAccess a rest { s with host := l } = busyAccess a rest s := by
  match a with
  | .read p => cases p <;> rfl
  | .write _ _ | .reset | .wait | .pause => rfl

/-- Two operations with the same access have the same step; a completion that is due would come first and leave them
pending. -/
theorem step_congr_access {s : State} {op op' : HostOp} (rest : List HostOp) (ht : s.phase = .busy → s.left ≠ 0)
    (h : op.access = op'.access) : step { s with host := op :: rest } = step { s with host := op' :: rest } := by
  cases ha : op'.access with
  | error r =>
    rw [step_refused (s := { s with host := op :: rest }) ht rfl (h.trans ha),
      step_refused (s := { s with host := op' :: rest }) ht rfl ha]
  | ok a =>
    by_cases hr : a = .reset
    · subst hr
      rw [HostOp.eq_reset_of_access ha, HostOp.eq_reset_of_access (h.trans ha)]
    by_cases hp : s.phase = .busy
    · rw [step_busy (s := { s with host := op :: rest }) hp (ht hp) rfl (h.trans ha) hr,
        step_busy (s := { s with host := op' :: rest }) hp (ht hp) rfl ha hr,
        busyAccess_with_host a rest (op :: rest), busyAccess_with_host a rest (op' :: rest)]
    · rw [step_served (s := { s with host := op :: rest }) hp rfl (h.trans ha) hr,
        step_served (s := { s with host := op' :: rest }) hp rfl ha hr]
      simp only [idleAccess_with_host, faultedAccess_with_host]
      rfl

/-! ## Accesses while BUSY -/

theorem busyAccess_read_of_ne_status {p : Port} (h : p ≠ .status) (rest : List HostOp) (s : State) :
    busyAccess (.read p) rest s = .refused .busyHazard := by
  cases p with
  | status => exact absurd rfl h
  | limb | byte | cmd | mask => rfl

/-- Settles O12, by the access of the BUSY phase: only a read of `STATUS` is served. -/
theorem busyHazardHasNoStep : Obligations.BusyHazardHasNoStep := by
  intro s op rest hp hl hh
  refine ⟨fun p ha hne => ?_, fun p v ha => ?_, fun ha => ?_⟩
  · rw [step_busy hp hl hh ha nofun, busyAccess_read_of_ne_status hne]
  · rw [step_busy hp hl hh ha nofun]
    rfl
  · rw [step_busy hp hl hh ha nofun]
    rfl

/-! ## The memory view and the control registers -/

/-- Settles O18, by the limb read after a limb write. -/
theorem hostLimbAccess : Obligations.HostLimbAccess := by
  intro s r i rest
  refine ⟨fun v hp hh => ⟨_, step_write_idle hp hh rfl, ?_⟩, fun hp hh => step_read hp hh rfl⟩
  exact ⟨s.readLimb_writeLimb_same r i v, fun q j hne => s.readLimb_writeLimb_ne v hne, rfl, rfl, rfl, rfl, rfl, rfl,
    rfl⟩

/-- Settles O19, by the byte read after a byte write; the byte survives its passage through a 64-bit port. -/
theorem hostByteAccess : Obligations.HostByteAccess := by
  intro s k rest hwf
  refine ⟨fun v hp hh => ⟨_, step_write_idle hp hh rfl, ?_⟩, fun hp hh => step_read hp hh rfl⟩
  have hv : (v.setWidth 64).setWidth 8 = v := by simp
  exact ⟨(Memory.read_write_same hwf _ _).trans hv, fun j hne => Memory.read_write_ne hwf _ hne, rfl, rfl, rfl, rfl, rfl,
    rfl, rfl⟩

/-- Settles O20: reads by the rule for each phase, and a `wait` as the poll of `STATUS` that it is. -/
theorem hostReadsMaskAndStatus : Obligations.HostReadsMaskAndStatus := by
  intro s rest
  refine ⟨fun hp hh => step_read hp hh rfl, fun hp hh => step_read hp hh rfl, fun hp hl hh => ?_,
    fun hp hh => step_wait_ends hp hh, fun hp hl hh => ?_⟩
  · exact step_busy hp hl hh rfl nofun
  · rw [step_busy hp hl hh rfl nofun, busyAccess, ← hh]
    rfl

/-! ## The default address map, one rule per range of offsets (R47) -/

section
variable {off : Nat} (width : Nat)

theorem busPort_registers (h : off < 0x400) : busPort defaultAddrMap off width =
    wordAccess off width (.limb (Fin.ofNat 16 (off / 0x40)) (Fin.ofNat 8 (off % 0x40 / 8))) := by
  unfold busPort defaultAddrMap
  dsimp only
  rw [if_pos (by omega), Nat.sub_zero]

theorem busPort_buffer (h : 0x400 ≤ off ∧ off < 0x439) : busPort defaultAddrMap off width =
    if width = 1 then .ok (.byte (Fin.ofNat 57 (off - 0x400))) else .error .badWidth := by
  unfold busPort defaultAddrMap
  dsimp only
  rw [if_neg (by omega), if_pos h]

theorem busPort_control (h : 0x440 ≤ off ∧ off < 0x458) : busPort defaultAddrMap off width =
    wordAccess off width (if off < 0x448 then .cmd else if off < 0x450 then .status else .mask) := by
  unfold busPort defaultAddrMap
  dsimp only
  rw [if_neg (by omega), if_neg (by omega)]
  by_cases hcmd : off < 0x448
  · rw [if_pos (by omega), if_pos hcmd]
  rw [if_neg (by omega), if_neg hcmd]
  by_cases hstatus : off < 0x450
  · rw [if_pos (by omega), if_pos hstatus]
  · rw [if_neg (by omega), if_pos (by omega), if_neg hstatus]

theorem busPort_reserved (h : (0x439 ≤ off ∧ off < 0x440) ∨ 0x458 ≤ off) :
    busPort defaultAddrMap off width = .error .reservedAddress := by
  unfold busPort defaultAddrMap
  dsimp only
  rw [if_neg (by omega), if_neg (by omega), if_neg (by omega), if_neg (by omega), if_neg (by omega)]

end

/-- The registers and the control words are the space of 64-bit accesses. -/
theorem busPort_wordSpace {off : Nat} (width : Nat) (h : off < 0x400 ∨ (0x440 ≤ off ∧ off < 0x458)) :
    ∃ p, busPort defaultAddrMap off width = wordAccess off width p :=
  h.elim (fun h => ⟨_, busPort_registers width h⟩) (fun h => ⟨_, busPort_control width h⟩)

theorem busPort_limb (r : Reg) (i : LimbIx) :
    busPort defaultAddrMap (0x40 * r.val + 0x08 * i.val) 8 = .ok (.limb r i) := by
  have hr : (0x40 * r.val + 0x08 * i.val) / 0x40 = r.val := by omega
  have hi : (0x40 * r.val + 0x08 * i.val) % 0x40 / 8 = i.val := by omega
  have haligned : (0x40 * r.val + 0x08 * i.val) % 8 = 0 := by omega
  rw [busPort_registers 8 (by omega), hr, hi, Fin.ofNat_val_eq_self, Fin.ofNat_val_eq_self]
  simp [wordAccess, haligned]

theorem busPort_byte (k : Fin 57) : busPort defaultAddrMap (0x400 + k.val) 1 = .ok (.byte k) := by
  rw [busPort_buffer 1 (by omega), Nat.add_sub_cancel_left, Fin.ofNat_val_eq_self]
  rfl

theorem busPort_cmd : busPort defaultAddrMap 0x440 8 = .ok .cmd := rfl

theorem busPort_status : busPort defaultAddrMap 0x448 8 = .ok .status := rfl

theorem busPort_mask : busPort defaultAddrMap 0x450 8 = .ok .mask := rfl

/-! ## Bus accesses -/

theorem HostOp.access_busRead {off width : Nat} {p : Port} (h : busPort defaultAddrMap off width = .ok p) :
    (HostOp.busRead off width).access = .ok (.read p) := by
  simp [HostOp.access, h]

theorem HostOp.access_busWrite {off width : Nat} {p : Port} (v : Word)
    (h : busPort defaultAddrMap off width = .ok p) : (HostOp.busWrite off width v).access = .ok (.write p v) := by
  simp [HostOp.access, h]

theorem HostOp.access_bus_refused {op : HostOp} {off width : Nat} {v : Word} {r : Refusal}
    (hop : op = .busRead off width ∨ op = .busWrite off width v) (h : busPort defaultAddrMap off width = .error r) :
    op.access = .error r := by
  rcases hop with rfl | rfl
  all_goals simp [HostOp.access, h]

/-- Settles O21: the bus access and the host operation have the same access, by the port at each offset. -/
theorem busReachesThePorts : Obligations.BusReachesThePorts := by
  intro s rest ht
  refine ⟨fun r i => ⟨?_, fun v => ?_⟩, fun k => ⟨?_, fun v => ?_⟩, fun w => ?_, ?_, ?_, fun hp => ⟨?_, fun v => ⟨?_, ?_⟩⟩⟩
  · exact step_congr_access rest ht (HostOp.access_busRead (busPort_limb r i))
  · exact step_congr_access rest ht (HostOp.access_busWrite v (busPort_limb r i))
  · exact step_congr_access rest ht (HostOp.access_busRead (busPort_byte k))
  · exact step_congr_access rest ht (HostOp.access_busWrite _ (busPort_byte k))
  · exact step_congr_access rest ht (HostOp.access_busWrite w busPort_cmd)
  · exact step_congr_access rest ht (HostOp.access_busRead busPort_status)
  · exact step_congr_access rest ht (HostOp.access_busRead busPort_mask)
  · exact step_read (s := { s with host := .busRead 0x440 8 :: rest }) hp rfl (HostOp.access_busRead busPort_cmd)
  · exact step_write_ignored (s := { s with host := .busWrite 0x448 8 v :: rest }) hp rfl rfl
      (HostOp.access_busWrite v busPort_status)
  · exact step_write_ignored (s := { s with host := .busWrite 0x450 8 v :: rest }) hp rfl rfl
      (HostOp.access_busWrite v busPort_mask)

/-- Settles O22: the address map refuses such an access, and an operation without an access has no step. -/
theorem busRefusesBadAccesses : Obligations.BusRefusesBadAccesses := by
  intro s rest off width v op ht hop
  have hrefused {r : Refusal} (h : busPort defaultAddrMap off width = .error r) :
      step { s with host := op :: rest } = .refused r :=
    step_refused ht rfl (HostOp.access_bus_refused hop h)
  refine ⟨fun hoff => ?_, fun hoff hw => ?_, fun hoff => ?_⟩
  · obtain ⟨p, hport⟩ := busPort_wordSpace width hoff
    refine ⟨fun hw => hrefused ?_, fun hw hmis => hrefused ?_⟩
    · rw [hport, wordAccess, if_pos hw]
    · rw [hport, wordAccess, if_neg (not_not.mpr hw), if_pos hmis]
  · exact hrefused (by rw [busPort_buffer width hoff, if_neg hw])
  · exact hrefused (busPort_reserved width hoff)

end Sys2Proof.Machine
end

section
/-! PROOFS. The encoding (spec 30_encoding.md): a word from its fields, the round trip of decoding and encoding, the
illegal words and the opcode map as conditions on bit ranges, the issue and the completion of a command, and what a
command leaves as it is. -/

namespace Sys2Proof

/-! ## Bit vectors in parts -/

theorem eq_append_iff {v w : Nat} {x : BitVec (v + w)} {hi : BitVec v} {lo : BitVec w} :
    x = hi ++ lo ↔ x.extractLsb' w v = hi ∧ x.extractLsb' 0 w = lo := by
  constructor
  · rintro rfl
    rw [BitVec.extractLsb'_append_eq_of_le le_rfl, BitVec.extractLsb'_append_eq_of_add_le (by omega), Nat.sub_self]
    exact ⟨BitVec.extractLsb'_eq_self, BitVec.extractLsb'_eq_self⟩
  · rintro ⟨rfl, rfl⟩
    rw [BitVec.extractLsb'_append_extractLsb'_eq_extractLsb' (Nat.zero_add w).symm, BitVec.extractLsb'_eq_self]

theorem extractLsb'_zero_one_eq_ofBool_iff {w : Nat} {x : BitVec w} {b : Bool} :
    x.extractLsb' 0 1 = BitVec.ofBool b ↔ x.getLsbD 0 = b := by
  have hbit : x.extractLsb' 0 1 = BitVec.ofBool (x.getLsbD 0) := by
    apply BitVec.eq_of_getLsbD_eq
    intro i hi
    obtain rfl : i = 0 := by omega
    simp
  rw [hbit]
  exact BitVec.ofBool_eq_iff_eq

theorem extractLsb'_extractLsb' {w start len : Nat} (x : BitVec w) {s n : Nat} (h : s + n ≤ len) :
    (x.extractLsb' start len).extractLsb' s n = x.extractLsb' (start + s) n := by
  apply BitVec.eq_of_getLsbD_eq
  intro i hi
  simp [hi, show s + i < len by omega, Nat.add_assoc]

/-! ## The immediates of SQRN, SER and DESER (R63) -/

section
variable {imm : BitVec 32}

theorem eq_sqrnImm_iff {n : BitVec 8} :
    imm = 0#24 ++ n ↔ imm.extractLsb' 8 24 = 0 ∧ imm.extractLsb' 0 8 = n :=
  eq_append_iff (v := 24) (w := 8)

theorem eq_serImm_iff {h : Bool} :
    imm = 0#31 ++ BitVec.ofBool h ↔ imm.extractLsb' 1 31 = 0 ∧ imm[0] = h := by
  rw [← BitVec.getLsbD_eq_getElem, ← extractLsb'_zero_one_eq_ofBool_iff]
  exact eq_append_iff (v := 31) (w := 1)

theorem eq_deserImm_iff {h : Bool} {nm : Byte} : imm = 0#16 ++ nm ++ 0#7 ++ BitVec.ofBool h ↔
    imm.extractLsb' 16 16 = 0#16 ∧ imm.extractLsb' 8 8 = nm ∧ imm.extractLsb' 1 7 = 0#7 ∧ imm[0] = h := by
  have hflag : imm = 0#16 ++ nm ++ 0#7 ++ BitVec.ofBool h ↔ _ := eq_append_iff (v := 31) (w := 1)
  have hpad : imm.extractLsb' 1 31 = 0#16 ++ nm ++ 0#7 ↔ _ := eq_append_iff (v := 24) (w := 7)
  have hmask : imm.extractLsb' 8 24 = 0#16 ++ nm ↔ _ := eq_append_iff (v := 16) (w := 8)
  rw [extractLsb'_extractLsb' imm (by decide), extractLsb'_extractLsb' imm (by decide)] at hpad hmask
  rw [hflag, hpad, hmask, extractLsb'_zero_one_eq_ofBool_iff, BitVec.getLsbD_eq_getElem, and_assoc, and_assoc]

end

/-! ## The round trip -/

/-- A word is made of its fields, and of no others (R61). -/
theorem eq_assemble_iff {w : Word} {op : BitVec 8} {rd ra rb : Reg} {imm : BitVec 32} :
    w = assemble op rd ra rb imm ↔ (opField w).toNat = op.toNat ∧ rsvField w = 0 ∧ rdField w = rd ∧
      raField w = ra ∧ rbField w = rb ∧ immField w = imm := by
  rw [← BitVec.toNat_eq]
  constructor
  · rintro rfl
    simp
  · rintro ⟨rfl, hrsv, rfl, rfl, rfl, rfl⟩
    exact (assemble_fields w hrsv).symm

/-- The checks of each opcode pin every field that its command does not hold. -/
theorem eq_encode_of_decode {w : Word} {i : Instr} (h : decode w = .ok i) : w = encode i := by
  simp only [decode] at h
  split at h
  on_goal 15 => exact nomatch h
  all_goals
    next hop =>
    obtain ⟨hrsv, hregs, himm, -, rfl⟩ := checked_eq_ok.mp h
    simp only [Bool.and_eq_true, beq_iff_eq] at hrsv hregs himm
    simp [encode, eq_assemble_iff, eq_sqrnImm_iff, eq_serImm_iff, eq_deserImm_iff, hop, hrsv, hregs, himm]

/-- The fields of a command's word pass the checks of its opcode. -/
theorem decode_of_eq_encode {w : Word} {i : Instr} (hwf : i.wf = true) (hw : w = encode i) : decode w = .ok i := by
  cases i
  all_goals
    simp only [encode, eq_assemble_iff, BitVec.ofNat_eq_ofNat, eq_sqrnImm_iff, eq_serImm_iff, eq_deserImm_iff] at hw
    simp [decode, checked_eq_ok, hw, hwf]

theorem decode_encode {i : Instr} (hwf : i.wf = true) : decode (encode i) = .ok i :=
  decode_of_eq_encode hwf rfl

/-- Settles O1: each field of the assembled word is the operand it was made from, and every check passes. -/
theorem decodeInvertsEncode : Obligations.DecodeInvertsEncode :=
  fun _ hwf => decode_encode hwf

/-- Settles O2: the checks of the decoder leave no bit of the word free. -/
theorem legalWordIsItsCommandsEncoding : Obligations.LegalWordIsItsCommandsEncoding :=
  fun _ _ h => ⟨wf_of_decode h, (eq_encode_of_decode h).symm⟩

/-! ## Fields as bit ranges (R9) -/

theorem bitRange_eq_toNat (w : Word) (hi lo : Nat) : bitRange w hi lo = (w.extractLsb' lo (hi - lo + 1)).toNat := by
  rw [bitRange, BitVec.extractLsb'_toNat, Nat.shiftRight_eq_div_pow]

section
variable {w : Word}

theorem toNat_opField : (opField w).toNat = bitRange w 7 0 := (bitRange_eq_toNat w 7 0).symm

theorem extractLsb'_eq_zero_iff {hi lo n : Nat} (hn : hi - lo + 1 = n) :
    w.extractLsb' lo n = 0#n ↔ bitRange w hi lo = 0 := by
  subst hn
  rw [bitRange_eq_toNat, ← BitVec.toNat_inj, BitVec.toNat_zero]

theorem rsvField_eq_zero_iff : rsvField w = 0#12 ↔ bitRange w 31 20 = 0 := extractLsb'_eq_zero_iff rfl

theorem rdField_eq_zero_iff : rdField w = 0 ↔ bitRange w 11 8 = 0 :=
  (BitVec.toFin_inj (y := 0#4)).trans (extractLsb'_eq_zero_iff rfl)

theorem raField_eq_zero_iff : raField w = 0 ↔ bitRange w 15 12 = 0 :=
  (BitVec.toFin_inj (y := 0#4)).trans (extractLsb'_eq_zero_iff rfl)

theorem rbField_eq_zero_iff : rbField w = 0 ↔ bitRange w 19 16 = 0 :=
  (BitVec.toFin_inj (y := 0#4)).trans (extractLsb'_eq_zero_iff rfl)

theorem immField_eq_zero_iff : immField w = 0#32 ↔ bitRange w 63 32 = 0 := extractLsb'_eq_zero_iff rfl

/-- A part of the immediate, `hi` and `lo` counted in the word. -/
theorem immPart_eq_zero_iff {hi lo s n : Nat} (hpart : hi - lo + 1 = n ∧ lo = 32 + s ∧ s + n ≤ 32) :
    (immField w).extractLsb' s n = 0#n ↔ bitRange w hi lo = 0 := by
  obtain ⟨hn, rfl, hle⟩ := hpart
  rw [immField, extractLsb'_extractLsb' w hle]
  exact extractLsb'_eq_zero_iff hn

theorem sqrnCount_eq_zero_iff : (immField w).extractLsb' 0 8 = 0#8 ↔ bitRange w 39 32 = 0 :=
  immPart_eq_zero_iff (by decide)

theorem sqrnPad_eq_zero_iff : (immField w).extractLsb' 8 24 = 0#24 ↔ bitRange w 63 40 = 0 :=
  immPart_eq_zero_iff (by decide)

theorem serPad_eq_zero_iff : (immField w).extractLsb' 1 31 = 0#31 ↔ bitRange w 63 33 = 0 :=
  immPart_eq_zero_iff (by decide)

theorem deserLowPad_eq_zero_iff : (immField w).extractLsb' 1 7 = 0#7 ↔ bitRange w 39 33 = 0 :=
  immPart_eq_zero_iff (by decide)

theorem deserHighPad_eq_zero_iff : (immField w).extractLsb' 16 16 = 0#16 ↔ bitRange w 63 48 = 0 :=
  immPart_eq_zero_iff (by decide)

end

/-! ## Illegal words (R65) -/

theorem forall_checked_ne_ok_iff {rsv regs imm : Bool} {i : Instr} : (∀ j, checked rsv regs imm i ≠ .ok j) ↔
    ¬(rsv = true ∧ regs = true ∧ imm = true ∧ i.wf = true) := by
  constructor
  · rintro h ⟨hrsv, hregs, himm, hwf⟩
    exact h i (checked_eq_ok.mpr ⟨hrsv, hregs, himm, hwf, rfl⟩)
  · intro h j hj
    obtain ⟨hrsv, hregs, himm, hwf, -⟩ := checked_eq_ok.mp hj
    exact h ⟨hrsv, hregs, himm, hwf⟩

/-- For each opcode the conditions of R65 that speak of it are the checks of the decoder that fail. -/
theorem illegalByR65_iff (w : Word) : IllegalByR65 w ↔ ∀ i, decode w ≠ .ok i := by
  simp only [decode, toNat_opField]
  split
  on_goal 15 =>
    refine iff_of_true (.inl ?_) nofun
    simp only [imp_false] at *
    omega
  all_goals
    next hop =>
    rw [forall_checked_ne_ok_iff]
    simp [IllegalByR65, hop, Instr.wf, not_and_or, or_assoc, -not_and, rsvField_eq_zero_iff, rdField_eq_zero_iff,
      raField_eq_zero_iff, rbField_eq_zero_iff, immField_eq_zero_iff, sqrnCount_eq_zero_iff, sqrnPad_eq_zero_iff,
      serPad_eq_zero_iff, deserLowPad_eq_zero_iff, deserHighPad_eq_zero_iff]

theorem decode_of_legal {w : Word} (h : ¬IllegalByR65 w) : ∃ i, decode w = .ok i := by
  simpa [illegalByR65_iff] using h

theorem decode_of_illegal {w : Word} (h : IllegalByR65 w) : ∃ e, decode w = .error e := by
  cases hd : decode w with
  | ok i => exact absurd hd ((illegalByR65_iff w).mp h i)
  | error e => exact ⟨e, rfl⟩

/-! ## The opcode map (R64) -/

/-- The bits that a row fixes. -/
theorem bitRange_of_admits {row : OpcodeRow} {w : Word} {hi lo : Nat} (h : row.admits w = true)
    (hm : bitRange row.mask hi lo = 2 ^ (hi - lo + 1) - 1) : bitRange w hi lo = bitRange row.value hi lo := by
  have hw : w &&& row.mask = row.value := by
    simp only [OpcodeRow.admits, Bool.and_eq_true, beq_iff_eq] at h
    exact h.1
  have hones : row.mask.extractLsb' lo (hi - lo + 1) = BitVec.allOnes _ := by
    rw [← BitVec.toNat_inj, ← bitRange_eq_toNat, hm, BitVec.toNat_allOnes]
  rw [← hw, bitRange_eq_toNat, bitRange_eq_toNat, BitVec.extractLsb'_and, hones, BitVec.and_allOnes]

/-- The side condition of SQRN. -/
theorem count_of_admits {row : OpcodeRow} {w : Word} (h : row.admits w = true) (hv : row.value = 0x0a) :
    bitRange w 39 32 ≠ 0 := by
  intro hc
  simp only [OpcodeRow.admits, Bool.and_eq_true] at h
  simp [hv, (extractLsb'_eq_zero_iff rfl).mpr hc] at h

/-- A row fixes every bit that R65 asks of its opcode. -/
theorem legal_of_admits {row : OpcodeRow} {w : Word} (hrow : row ∈ opcodeMap) (h : row.admits w = true) :
    ¬IllegalByR65 w := by
  have hbits {hi lo : Nat} : bitRange row.mask hi lo = 2 ^ (hi - lo + 1) - 1 →
      bitRange w hi lo = bitRange row.value hi lo := bitRange_of_admits h
  have hcount := count_of_admits h
  simp only [opcodeMap, List.cons_append, List.nil_append, List.mem_cons, List.not_mem_nil, or_false] at hrow
  rcases hrow with rfl | rfl | rfl | rfl | rfl | rfl | rfl | rfl | rfl | rfl | rfl | rfl | rfl | rfl
  all_goals
    simp (disch := decide) only [IllegalByR65, hbits, hcount]
    simp [bitRange]

theorem opcodeMap_fixes_opcode : ∀ row ∈ opcodeMap, bitRange row.mask 7 0 = 0xff := by decide

theorem opcodeMap_opcode_injective : ∀ row ∈ opcodeMap, ∀ row' ∈ opcodeMap,
    bitRange row.value 7 0 = bitRange row'.value 7 0 → row = row' := by decide

/-- The rows have different opcodes, so no word matches two. -/
theorem row_eq_of_admits {row row' : OpcodeRow} {w : Word} (hrow : row ∈ opcodeMap) (hrow' : row' ∈ opcodeMap)
    (h : row.admits w = true) (h' : row'.admits w = true) : row = row' := by
  apply opcodeMap_opcode_injective row hrow row' hrow'
  rw [← bitRange_of_admits h (opcodeMap_fixes_opcode row hrow),
    ← bitRange_of_admits h' (opcodeMap_fixes_opcode row' hrow')]

theorem encode_matches_row (i : Instr) : Laws.TableRow.Statement i :=
  match i with
  | .add rd ra rb => Laws.TableRow.add rd ra rb
  | .sub rd ra rb => Laws.TableRow.sub rd ra rb
  | .wred rd => Laws.TableRow.wred rd
  | .sred rd => Laws.TableRow.sred rd
  | .hibit ra => Laws.TableRow.hibit ra
  | .lobit ra => Laws.TableRow.lobit ra
  | .eq ra rb => Laws.TableRow.eq ra rb
  | .mul rd ra rb => Laws.TableRow.mul rd ra rb
  | .sqr rd ra => Laws.TableRow.sqr rd ra
  | .sqrn rd ra n => Laws.TableRow.sqrn rd ra n
  | .mulw rd ra w => Laws.TableRow.mulw rd ra w
  | .isr rd ra => Laws.TableRow.isr rd ra
  | .ser ra h => Laws.TableRow.ser ra h
  | .deser rd h nm => Laws.TableRow.deser rd h nm

theorem row_of_decode {w : Word} {i : Instr} (h : decode w = .ok i) :
    ∃ row ∈ opcodeMap, row.mnemonic = i.mnemonic ∧ row.admits w = true := by
  rw [eq_encode_of_decode h]
  exact encode_matches_row i (wf_of_decode h)

/-- Settles O3: a command's word matches its own row, a word that matches a row is legal, and no word matches two. -/
theorem decodeFollowsOpcodeMap : Obligations.DecodeFollowsOpcodeMap := by
  intro w m
  constructor
  · rintro ⟨i, hd, rfl⟩
    exact row_of_decode hd
  · rintro ⟨row, hrow, rfl, h⟩
    obtain ⟨i, hd⟩ := decode_of_legal (legal_of_admits hrow h)
    obtain ⟨row', hrow', hname, h'⟩ := row_of_decode hd
    exact ⟨i, hd, by rw [row_eq_of_admits hrow hrow' h h', hname]⟩

end Sys2Proof

namespace Sys2Proof.Machine

/-! ## Issue (R65, R72) -/

theorem State.issueCommand_of_illegal (s : State) {w : Word} (h : IllegalByR65 w) :
    s.issueCommand w = s.enterFault .illegalCmd := by
  obtain ⟨e, he⟩ := decode_of_illegal h
  simp only [State.issueCommand, he]

theorem State.issueCommand_of_decode (s : State) {w : Word} {i : Instr} (h : decode w = .ok i) :
    s.issueCommand w = { s with status := { s.status with busy := true }, cmd := w, left := commandDuration w } := by
  simp only [State.issueCommand, h]

theorem step_issue {s : State} {w : Word} {rest : List HostOp} (hp : s.phase = .idle) (hh : s.host = .issue w :: rest) :
    step s = .next ((s.issueCommand w).served rest none) :=
  step_write_idle hp hh rfl

/-- Settles O6, by the issue of a word that decodes. -/
theorem legalIssueMakesBusy : Obligations.LegalIssueMakesBusy := by
  intro s w i rest hp hh hd
  rw [step_issue hp hh, s.issueCommand_of_decode hd]
  rfl

theorem step_issue_illegal {s : State} {w : Word} {rest : List HostOp} (h : IllegalByR65 w) (hp : s.phase = .idle)
    (hh : s.host = .issue w :: rest) : step s = .next ((s.enterFault .illegalCmd).served rest none) := by
  rw [step_issue hp hh, s.issueCommand_of_illegal h]

/-- Settles O4: the conditions of R65 opcode by opcode, and the issue of a word that is no command. -/
theorem illegalWordsFault : Obligations.IllegalWordsFault :=
  ⟨illegalByR65_iff, fun _ _ _ h hp hh => step_issue_illegal h hp hh, by decide, by decide⟩

/-! ## Completion (R72) -/

theorem step_completion {s : State} {i : Instr} (hp : s.phase = .busy) (hl : s.left = 0)
    (hh : s.host.head? ≠ some .reset) (hd : decode s.cmd = .ok i) : step s = exec i { s with reply := none } := by
  simp only [step, advance]
  split
  next rest hreset => simp [hreset] at hh
  next => rw [if_pos ⟨hp, hl⟩, completion, hd]

/-- Settles O7: no reset is pending, so the step is the completion. -/
theorem stepRunsTheCommandInFlight : Obligations.StepRunsTheCommandInFlight :=
  fun _ _ hp hl hh hd => step_completion hp hl hh hd

theorem State.withFetchWord_toNat (s : State) (w : Word) : s.withFetchWord 64 w.toNat = placeCommand s w := by
  rw [State.withFetchWord, Nat.mod_eq_of_lt w.isLt, BitVec.ofNat_toNat, BitVec.setWidth_eq]

/-- Settles O8: a legal word is placed as a command in flight with no time left, an illegal one as the next issue. -/
theorem placedWordRunsNext : Obligations.PlacedWordRunsNext := by
  constructor
  · intro s i hwf
    have hd := decode_encode hwf
    rw [s.withFetchWord_toNat, placeCommand, hd]
    exact step_completion rfl rfl nofun hd
  · intro s w h
    obtain ⟨e, he⟩ := decode_of_illegal h
    rw [s.withFetchWord_toNat, placeCommand, he]
    exact step_issue_illegal h rfl rfl

/-- Settles O46: the shapes of a next state all retire; SER retires up to the hibit. -/
theorem everyCommandCompletes : Obligations.EveryCommandCompletes := by
  intro i s hwf hser
  rcases exec_cases i s hwf with ⟨rd, v, _, _, _, _, he⟩ | ⟨m, _, _, _, _, he⟩ | ⟨rd, v, m, _, _, _, _, _, he⟩ |
    ⟨ra, h, rfl⟩
  · exact ⟨_, he, rfl, rfl, rfl⟩
  · exact ⟨_, he, rfl, rfl, rfl⟩
  · exact ⟨_, he, rfl, rfl, rfl⟩
  · have hclear : ¬(h = false ∧ halfModulus < residue (s.reg ra)) := by
      rintro ⟨rfl, hgt⟩
      exact absurd (hser ra rfl) (Nat.not_le.mpr hgt)
    rw [exec_ser, if_neg hclear]
    exact ⟨_, rfl, rfl, rfl, rfl⟩

/-! ## Frames, by what a command writes (R64) -/

theorem wf_of_writesMask {i : Instr} (hm : i.writesMask = true) : i.wf = true := by
  by_contra hwf
  obtain ⟨rd, ra, rfl⟩ := eq_sqrn_zero_of_not_wf hwf
  cases hm

section
variable {i : Instr} {rd : Reg} (s : State)

theorem exec_of_writes_register (hwf : i.wf = true) (hd : i.destination = some rd) (hm : i.writesMask = false) :
    ∃ v, exec i s = .next (s.writeReg rd v).retire := by
  rcases exec_cases i s hwf with ⟨rd', v, hd', _, _, _, he⟩ | ⟨m, hd', _⟩ | ⟨rd', v, m, _, hm', _⟩ | ⟨ra, h, rfl⟩
  · obtain rfl := Option.some.inj (hd'.symm.trans hd)
    exact ⟨v, he⟩
  · simp [hd] at hd'
  · simp [hm] at hm'
  · cases hd

theorem exec_of_writes_mask (hd : i.destination = none) (hm : i.writesMask = true) :
    ∃ m, exec i s = .next (s.writeMask m).retire := by
  rcases exec_cases i s (wf_of_writesMask hm) with ⟨rd', v, hd', _⟩ | ⟨m, _, _, _, _, he⟩ | ⟨rd', v, m, hd', _⟩ | ⟨ra, h, rfl⟩
  · simp [hd] at hd'
  · exact ⟨m, he⟩
  · simp [hd] at hd'
  · cases hm

theorem exec_of_writes_register_and_mask (hd : i.destination = some rd) (hm : i.writesMask = true) :
    ∃ v m, exec i s = .next ((s.writeReg rd v).writeMask m).retire := by
  rcases exec_cases i s (wf_of_writesMask hm) with ⟨rd', v, _, hm', _⟩ | ⟨m, hd', _⟩ |
    ⟨rd', v, m, hd', _, _, _, _, he⟩ | ⟨ra, h, rfl⟩
  · simp [hm] at hm'
  · simp [hd] at hd'
  · obtain rfl := Option.some.inj (hd'.symm.trans hd)
    exact ⟨v, m, he⟩
  · cases hd

end

/-- Settles O48: the next state is one register write, retired. -/
theorem registerCommandFrame : Obligations.RegisterCommandFrame := by
  intro i rd s t hwf hd hm ht
  obtain ⟨v, he⟩ := exec_of_writes_register s hwf hd hm
  obtain rfl := next_inj (he.symm.trans ht)
  exact ⟨fun q hq => s.reg_writeReg_ne rd q v hq, fun _ => rfl, rfl, rfl, rfl, rfl, rfl, rfl, rfl, rfl, rfl⟩

/-- Settles O49: the next state is one write of `MASK`, retired. -/
theorem predicateFrame : Obligations.PredicateFrame := by
  intro i s t hd hm ht
  obtain ⟨m, he⟩ := exec_of_writes_mask s hd hm
  obtain rfl := next_inj (he.symm.trans ht)
  exact ⟨fun _ => rfl, fun _ => rfl, rfl, rfl, rfl, rfl, rfl, rfl, rfl, rfl⟩

/-- Settles O50: the next state is one register write and one write of `MASK`, retired. -/
theorem isrAndDeserFrame : Obligations.IsrAndDeserFrame := by
  intro i rd s t hd hm ht
  obtain ⟨v, m, he⟩ := exec_of_writes_register_and_mask s hd hm
  obtain rfl := next_inj (he.symm.trans ht)
  exact ⟨fun q hq => s.reg_writeReg_ne rd q v hq, fun _ => rfl, rfl, rfl, rfl, rfl, rfl, rfl, rfl, rfl⟩

/-! ## What a command reads (R70) -/

/-- Two states that agree on what a command reads get the same values written (`exec_cases` for two states); SER is of a
shape of its own. -/
theorem exec_congr {i : Instr} {s s' : State} (hwf : i.wf = true) (hsrc : ∀ r ∈ i.sources, s.reg r = s'.reg r)
    (hbuf : i.readsBuffer = true → s.b = s'.b) :
    (∃ rd v, i.destination = some rd ∧ i.writesMask = false ∧ i.storedBytes = 0 ∧
      exec i s = .next (s.writeReg rd v).retire ∧ exec i s' = .next (s'.writeReg rd v).retire) ∨
    (∃ m, i.destination = none ∧ i.storedBytes = 0 ∧
      exec i s = .next (s.writeMask m).retire ∧ exec i s' = .next (s'.writeMask m).retire) ∨
    (∃ rd v m, i.destination = some rd ∧ i.storedBytes = 0 ∧
      exec i s = .next ((s.writeReg rd v).writeMask m).retire ∧
      exec i s' = .next ((s'.writeReg rd v).writeMask m).retire) ∨
    (∃ ra h, i = .ser ra h) := by
  cases i
  all_goals
    simp only [Instr.sources, List.forall_mem_cons, List.not_mem_nil, false_implies, implies_true, and_true] at hsrc
  case add rd ra rb =>
    exact .inl ⟨_, _, rfl, rfl, rfl, exec_add rd ra rb s, by rw [exec_add, hsrc.1, hsrc.2]⟩
  case sub rd ra rb =>
    exact .inl ⟨_, _, rfl, rfl, rfl, exec_sub rd ra rb s, by rw [exec_sub, hsrc.1, hsrc.2]⟩
  case wred rd => exact .inl ⟨_, _, rfl, rfl, rfl, exec_wred rd s, by rw [exec_wred, hsrc]⟩
  case sred rd => exact .inl ⟨_, _, rfl, rfl, rfl, exec_sred rd s, by rw [exec_sred, hsrc]⟩
  case mul rd ra rb => exact .inl ⟨_, _, rfl, rfl, rfl, rfl, by rw [hsrc.1, hsrc.2]; rfl⟩
  case sqr rd ra => exact .inl ⟨_, _, rfl, rfl, rfl, rfl, by rw [hsrc]; rfl⟩
  case sqrn rd ra n =>
    have hn : n ≠ 0 := by simpa [Instr.wf] using hwf
    exact .inl ⟨_, _, rfl, rfl, rfl, exec_sqrn rd ra hn s, by rw [exec_sqrn rd ra hn, hsrc]⟩
  case mulw rd ra w => exact .inl ⟨_, _, rfl, rfl, rfl, rfl, by rw [hsrc]; rfl⟩
  case hibit ra => exact .inr (.inl ⟨_, rfl, rfl, exec_hibit ra s, by rw [exec_hibit, hsrc]⟩)
  case lobit ra => exact .inr (.inl ⟨_, rfl, rfl, exec_lobit ra s, by rw [exec_lobit, hsrc]⟩)
  case eq ra rb => exact .inr (.inl ⟨_, rfl, rfl, exec_eq ra rb s, by rw [exec_eq, hsrc.1, hsrc.2]⟩)
  case isr rd ra => exact .inr (.inr (.inl ⟨_, _, _, rfl, rfl, exec_isr rd ra s, by rw [exec_isr, hsrc]⟩))
  case deser rd h nm =>
    exact .inr (.inr (.inl ⟨_, _, _, rfl, rfl, exec_deser rd h nm s, by rw [exec_deser, hbuf rfl]⟩))
  case ser ra h => exact .inr (.inr (.inr ⟨ra, h, rfl⟩))

/-- The bytes that SER stores do not depend on the buffer before. -/
theorem read_serBuffer_congr {b b' : Memory} (hb : b.wf) (hb' : b'.wf) (r : Elem) {ra : Reg} {h : Bool} {k : Nat}
    (hk : k < (Instr.ser ra h).storedBytes) : (serBuffer b r h).read k = (serBuffer b' r h).read k := by
  rw [read_serBuffer hb, read_serBuffer hb']
  by_cases hlast : h = true ∧ k = 56
  · rw [if_pos hlast, if_pos hlast]
  · have hk56 : k < 56 := by
      cases h <;> simp [Instr.storedBytes] at hk hlast <;> omega
    rw [if_neg hlast, if_neg hlast, dif_pos hk56, dif_pos hk56]

/-- Settles O53, by the shapes of the two next states; the two SERs fault together or store the same bytes. -/
theorem resultsDependOnSourcesOnly : Obligations.ResultsDependOnSourcesOnly := by
  intro i s s' hsrc hbuf hb hb' hstatus
  by_cases hwf : i.wf = true
  · rcases exec_congr hwf hsrc hbuf with ⟨rd, v, hd, hm, hstored, he, he'⟩ | ⟨m, hd, hstored, he, he'⟩ |
      ⟨rd, v, m, hd, hstored, he, he'⟩ | ⟨ra, h, rfl⟩
    · exact ⟨_, _, he, he', status_retire_congr hstatus, by simp [hd], by simp [hm], by simp [hstored]⟩
    · exact ⟨_, _, he, he', status_retire_congr hstatus, by simp [hd], by simp, by simp [hstored]⟩
    · exact ⟨_, _, he, he', status_retire_congr hstatus, by simp [hd], by simp, by simp [hstored]⟩
    · have hreg : s.reg ra = s'.reg ra := hsrc ra (by simp [Instr.sources])
      refine ⟨_, _, exec_ser ra h s, exec_ser ra h s', ?_, nofun, nofun, ?_⟩
      all_goals
        rw [hreg]
        split
      · rfl
      · exact status_retire_congr hstatus
      · nofun
      · exact fun _ k hk => read_serBuffer_congr hb hb' _ hk
  · obtain ⟨rd, ra, rfl⟩ := eq_sqrn_zero_of_not_wf hwf
    exact ⟨_, _, exec_sqrn_zero rd ra s, exec_sqrn_zero rd ra s', rfl, fun _ h => absurd h hwf, nofun, nofun⟩

end Sys2Proof.Machine
end

section
/-! PROOFS. The reduction unit (spec 40_addsub_reduce.md): the bounds and fixed points of `RF` (R92), the borrow of `SR`
(R98), and with them ADD, SUB, WRED and SRED (R93 to R97). -/

namespace Sys2Proof

set_option exponentiation.threshold 1000

/-! ## Values from bounds on limbs -/

/-- The excess over a value just below `2^448` comes from limbs 0 and 4: `256·(2^224 + 1)` (R92 item 4). -/
theorem val_lt_of_WR {a : Elem} (h : WR a) : a.val < 2 ^ 448 + 2 ^ 233 := by
  obtain ⟨x0, x1, x2, x3, x4, x5, x6, x7, e, h0, h1, h2, h3, h4, h5, h6, h7⟩ := Machine.WR_nats h
  simp only [Elem.val, e, valNats_cons, valNats_nil]
  simp only [m56] at *
  omega

/-- `Elem.val_lt` for eight coefficients of 64 bits. -/
theorem valNats_lt_of_words {C : List Nat} (hC : C.length = 8) (h : ∀ x ∈ C, x < 2 ^ 64) :
    valNats C < 257 * 2 ^ 448 := by
  rw [← Elem.val_ofNats hC h]
  exact Elem.val_lt _

/-- Bounds on the limbs, by index and by membership. -/
theorem Elem.forall_mem_nats {a : Elem} {P : Nat → Prop} :
    (∀ x ∈ a.nats, P x) ↔ ∀ i : LimbIx, P a[i.val].toNat := by
  simp [List.forall_mem_iff_getElem, Fin.forall_iff]

/-- `CANON` elements are the `limbs` of their residues (R12). -/
theorem eq_limbsOf_of_CANON {b : Elem} (h : CANON b) : b = limbsOf (residue b) := by
  obtain ⟨hlimbs, hval⟩ := h
  have hdigits : ∀ x ∈ b.nats, x < 2 ^ 56 :=
    Elem.forall_mem_nats.mpr fun i => Nat.lt_of_le_of_lt (hlimbs i) (by decide)
  rw [residue, Nat.mod_eq_of_lt hval]
  exact Elem.ext_nats ((eq_digitNats b.length_nats hdigits).trans (nats_limbsOf _).symm)

end Sys2Proof

namespace Sys2Proof.Machine

set_option exponentiation.threshold 1000

/-! ## `RF`: limb bounds, wide coefficients, fixed points (R92) -/

/-- R92 item 2. -/
theorem foldedNats_getD_le (V : Nat) {i : Nat} (hi : i < 8) :
    (foldedNats V).getD i 0 ≤ if i = 0 ∨ i = 4 then m56 + V / 2 ^ 448 else m56 := by
  have hdigit : V / 2 ^ (56 * i) % 2 ^ 56 ≤ m56 := Nat.le_pred_of_lt (Nat.mod_lt _ (by decide))
  rw [List.getD_eq_getElem _ _ (by simpa using hi)]
  simp only [foldedNats, List.getElem_map, List.getElem_range]
  split
  · exact Nat.add_le_add_right hdigit _
  · exact hdigit

theorem foldedNats_le {V : Nat} : ∀ x ∈ foldedNats V, x ≤ m56 + V / 2 ^ 448 := by
  intro x hx
  obtain ⟨i, hi, rfl⟩ := List.getElem_of_mem hx
  have h := foldedNats_getD_le V (i := i) (by simpa using hi)
  rw [List.getD_eq_getElem _ _ hi] at h
  split at h
  · exact h
  · exact le_trans h (Nat.le_add_right _ _)

/-- Without a carry out of limb 7 nothing is folded. -/
theorem foldedNats_of_lt {V : Nat} (h : V < 2 ^ 448) : foldedNats V = digitNats V := by
  simp only [foldedNats, digitNats, Nat.div_eq_of_lt h, ite_self, Nat.add_zero]

/-- R92 item 6. -/
theorem rippleFold_eq_self {C : List Nat} (hC : C.length = 8) (h : ∀ x ∈ C, x ≤ m56) : rippleFold C = C := by
  have hdigits : ∀ x ∈ C, x < 2 ^ 56 := fun x hx => Nat.lt_of_le_of_lt (h x hx) (by decide)
  have hval : valNats C < 2 ^ 448 := by simpa [hC] using valNats_lt hdigits
  rw [rippleFold_eq hC, foldedNats_of_lt hval, ← eq_digitNats hC hdigits]

/-- Eight coefficients of 128 bits are worth a little more than `2^520`; `valNats_lt_of_wide` is too wide for R92
item 5. -/
theorem valNats_lt_of_wide_tight {C : List Nat} (hC : C.length = 8) (h : ∀ x ∈ C, x < 2 ^ 128) :
    valNats C < 3 * 2 ^ 519 := by
  obtain ⟨x0, x1, x2, x3, x4, x5, x6, x7, rfl⟩ := eq_eight hC
  simp only [List.mem_cons, List.not_mem_nil, or_false, forall_eq_or_imp, forall_eq] at h
  simp only [valNats_cons, valNats_nil]
  omega

/-- R92 item 5 on the value of eight coefficients of 128 bits: the first carry, the limbs and the value after one pass. -/
theorem foldedNats_of_wide {V : Nat} (h : V < 3 * 2 ^ 519) : V / 2 ^ 448 < 2 ^ 73 ∧
    (∀ x ∈ foldedNats V, x < 2 ^ 73) ∧ valNats (foldedNats V) < 2 ^ 448 + 2 ^ 298 := by
  have hcarry : V / 2 ^ 448 < 3 * 2 ^ 71 := Nat.div_lt_of_lt_mul (by rwa [Nat.mul_left_comm, ← Nat.pow_add])
  have hvalue := valNats_foldedNats V
  refine ⟨by omega, fun x hx => ?_, ?_⟩
  · have hle := foldedNats_le x hx
    rw [m56] at hle
    omega
  · rw [modulus_eq] at hvalue
    omega

/-- Settles O23: the closed form of `RF` gives the carry and the value; the bounds are bounds on the carry. -/
theorem rippleAndFold : Obligations.RippleAndFold := by
  refine ⟨fun C hC => ?_, fun a ha => ?_, by decide, #v[0x0100000000000000, 0, 0, 0, 0, 0, 0, 0], by decide, by decide⟩
  · have hfold := rippleFold_eq hC
    refine ⟨by rw [ripple_eight hC], ?_, fun i hi => ?_, fun h64 => ?_, fun h128 => ?_, rippleFold_eq_self hC⟩
    · rw [hfold, valNats_foldedNats]
    · rw [hfold]
      exact foldedNats_getD_le _ hi
    · have hlt := valNats_lt_of_words hC h64
      rw [hfold, ofNats_foldedNats]
      exact ⟨by omega, WR_foldedDigits hlt⟩
    · obtain ⟨hcarry, hlimbs, hvalue⟩ := foldedNats_of_wide (valNats_lt_of_wide_tight hC h128)
      rw [hfold]
      exact ⟨hcarry, hlimbs, hvalue, by omega, WRWithin_rippleFoldTwice hC h128⟩
  · have hlt := val_lt_of_WR ha
    have hcarry : (ripple 0 a.nats).2 = a.val / 2 ^ 448 := by rw [ripple_eight a.length_nats, Elem.val]
    exact ⟨by omega, by omega⟩

/-! ## `SR`: the borrow and the canonical element (R96, R98) -/

/-- The borrow of subtracting `p` from a value below `2p` is the comparison with `p` (R98). -/
theorem borrowPass_pLimbs_borrow {r : List Nat} (hr : r.length = 8) (h : valNats r < 2 * modulus) :
    (borrowPass 0 r pLimbs.nats).2 = if modulus ≤ valNats r then 0 else -1 := by
  obtain ⟨hlen, hdigits, hvalue⟩ := borrowPass_spec 0 r pLimbs.nats (by simp [hr])
  have hlt := valNats_lt hdigits
  rw [hlen, hr] at hlt
  rw [hr, valNats_pLimbs] at hvalue
  rw [modulus_eq] at *
  norm_num only at *
  split <;> omega

theorem val_weakReduce (a : Elem) : (weakReduce a).val = valNats (rippleFold a.nats) := by
  rw [weakReduce_eq, Elem.val, nats_foldedDigits (Elem.val_lt_pow a), rippleFold_eq a.length_nats, Elem.val]

/-- Settles O24: the folded value is weakly reduced, so it is below `2p`; a canonical element is the `limbs` of its
residue. -/
theorem strongReductionNeverAsserts : Obligations.StrongReductionNeverAsserts := by
  have hbound : 2 ^ 448 + 2 ^ 233 < 2 * modulus := by decide +kernel
  refine ⟨hbound, fun a => ?_⟩
  have hlt := val_lt_of_WR (WR_weakReduce a)
  have hmod : a.val % modulus < modulus := Nat.mod_lt _ modulus_pos
  refine ⟨hlt, ?_, strongReduce_eq a, canon_limbsOf hmod, val_limbsOf (mod_modulus_lt _), fun b hb hres => ?_⟩
  · rw [val_weakReduce] at hlt ⊢
    exact borrowPass_pLimbs_borrow (by rw [rippleFold_eq a.length_nats, length_foldedNats]) (hlt.trans hbound)
  · rw [eq_limbsOf_of_CANON hb, hres, residue]

/-! ## ADD, SUB, WRED, SRED -/

/-- Settles O25: the result is the folded raw sum; weakly reduced operands add without wrap and with carry at most 2. -/
theorem addResult : Obligations.AddResult := by
  intro rd ra rb s
  have hV := wrappedSum_lt (s.reg ra) (s.reg rb)
  refine ⟨opField_assemble _ _ _ _ _, exec_add rd ra rb s, WR_foldedDigits hV, fun ha hb => ?_⟩
  have hsum := wrappedSum_of_WR ha hb
  have hlta := val_lt_of_WR ha
  have hltb := val_lt_of_WR hb
  refine ⟨hsum, WRWithin_foldedDigits (by decide) (by omega), ?_⟩
  rw [residue_foldedDigits (hV.trans (by decide +kernel)), hsum, Nat.add_mod, residue, residue]

/-- Settles O26: the result is the folded raw difference; for weakly reduced operands the bias `2p` keeps every limb from
wrapping, adds nothing to the residue and leaves a carry of at most 3. -/
theorem subResult : Obligations.SubResult := by
  intro rd ra rb s
  have hV := wrappedDifference_lt (s.reg ra) (s.reg rb)
  refine ⟨opField_assemble _ _ _ _ _, exec_sub rd ra rb s, WR_foldedDigits hV, fun ha hb => ?_⟩
  have hdiff := wrappedDifference_of_WR ha hb
  have hlta := val_lt_of_WR ha
  have hp := modulus_lt
  refine ⟨hdiff, WRWithin_foldedDigits (by decide) (by omega), ?_⟩
  rw [residue_foldedDigits (hV.trans (by decide +kernel)), residue, residue, ← Nat.add_mod, hdiff,
    Nat.add_mul_mod_self_right]

/-- The closed form of `RF` on an element whose limbs have 56 bits (R92 item 6). -/
theorem foldedDigits_val_of_le {a : Elem} (h : ∀ x ∈ a.nats, x ≤ m56) : foldedDigits a.val = a := by
  rw [← weakReduce_eq, weakReduce, rippleFold_eq_self a.length_nats h, Elem.ofNats_nats]

/-- Settles O27: `RF` subtracts its carry times `p`; limbs of 56 bits, those of a canonical element and of `PL`, are a
fixed point. -/
theorem wredResult : Obligations.WredResult := by
  intro rd s
  have hlt := Elem.val_lt_pow (s.reg rd)
  refine ⟨opField_assemble _ _ _ _ _, exec_wred rd s, WR_foldedDigits (s.reg rd).val_lt,
    residue_foldedDigits hlt, val_foldedDigits hlt, ?_⟩
  rintro (hcanon | hp)
  · exact foldedDigits_val_of_le (Elem.forall_mem_nats.mpr hcanon.1)
  · rw [hp]
    exact foldedDigits_val_of_le (by decide)

/-- SRED leaves a canonical element as it is. -/
theorem exec_sred_of_CANON {rd : Reg} {s : State} (h : CANON (s.reg rd)) : exec (.sred rd) s = .next s.retire := by
  have hfix : limbsOf ((s.reg rd).val % modulus) = s.reg rd := (eq_limbsOf_of_CANON h).symm
  rw [exec_sred, hfix, State.writeReg_same]

@[simp] theorem State.retire_retire (s : State) : s.retire.retire = s.retire := rfl

/-- Settles O28: the result is canonical, so a second SRED only retires a retired state. -/
theorem sredResult : Obligations.SredResult := by
  intro rd s
  have hcanon : CANON (limbsOf ((s.reg rd).val % modulus)) := canon_limbsOf (Nat.mod_lt _ modulus_pos)
  refine ⟨opField_assemble _ _ _ _ _, exec_sred rd s, hcanon, fun t ht => ?_⟩
  obtain rfl := next_inj ((exec_sred rd s).symm.trans ht)
  rw [exec_sred_of_CANON (by rwa [State.reg_retire, State.reg_writeReg_same]), State.retire_retire]

end Sys2Proof.Machine
end

section
/-! PROOFS. The predicates HIBIT, LOBIT and EQ (spec 41_predicates.md R111 to R113): the `MASK` each leaves for any
operands, and what it tells of the residues of weakly reduced ones. -/

namespace Sys2Proof.Machine

/-! ## Masks of comparisons -/

theorem maskOf_beq {α : Type} [DecidableEq α] (x y : α) : maskOf (x == y) = if x = y then all1 else all0 := by
  simp only [maskOf, beq_iff_eq]

theorem maskOf_injective {p q : Bool} (h : maskOf p = maskOf q) : p = q := by
  rw [Bool.eq_iff_iff, ← maskOf_eq_all1, ← maskOf_eq_all1, h]

/-- Two answers of one mask computation come from one truth value. -/
theorem eq_of_ok_maskOf {r : Except FaultCause Word} {p q : Bool} (hp : r = .ok (maskOf p)) (hq : r = .ok (maskOf q)) :
    p = q :=
  maskOf_injective (Except.ok.inj (hp.symm.trans hq))

/-! ## The masks for weakly reduced operands -/

/-- The two answers of `HIBITV`, for any operand and for a weakly reduced one, agree (R111). -/
theorem double_odd_iff_of_WR {x : Elem} (h : WR x) :
    wrappedSum x x % modulus % 2 = 1 ↔ halfModulus < residue x := by
  rw [← beq_iff_eq, eq_of_ok_maskOf (hibitV_eq x) (hibitV_of_WR h), decide_eq_true_iff]

/-- The two answers of EQ, for any operands and for weakly reduced ones, agree (R113). -/
theorem wrappedDifference_mod_eq_zero_iff_of_WR {a b : Elem} (ha : WR a) (hb : WR b) :
    wrappedDifference a b % modulus = 0 ↔ residue a = residue b := by
  rw [← beq_iff_eq, eq_of_ok_maskOf (eqV_eq a b) (eqV_of_WR ha hb), beq_iff_eq]

/-! ## HIBIT, LOBIT, EQ -/

/-- Settles O29: doubling a weakly reduced operand does not wrap, and `r + r` mod an odd `p` is odd exactly when it
passes `p`. -/
theorem hibitResult : Obligations.HibitResult := by
  intro ra s
  refine ⟨opField_assemble _ _ _ _ _, ?_, double_odd_iff_of_WR⟩
  rw [exec_hibit, maskOf_beq]

/-- Settles O30: strong reduction never asserts, and the low bit of canonical limbs is the parity of the residue. -/
theorem lobitResult : Obligations.LobitResult := by
  intro ra s
  refine ⟨opField_assemble _ _ _ _ _, ?_⟩
  rw [exec_lobit, maskOf_beq]

/-- Settles O31: the canonical limbs of the biased difference are all zero exactly when `p` divides it; the bias `2p`
keeps weakly reduced operands from wrapping and drops out mod `p`. -/
theorem eqResult : Obligations.EqResult := by
  intro ra rb s
  refine ⟨opField_assemble _ _ _ _ _, ?_, wrappedDifference_mod_eq_zero_iff_of_WR⟩
  rw [exec_eq, maskOf_beq]

end Sys2Proof.Machine
end

section
/-! PROOFS. The multiplier (spec 42_multiply.md): the bound on the coefficients of weakly reduced operands (R122), and
what MUL, SQR, SQRN and MULW leave (R123 to R126). -/

namespace Sys2Proof

/-! ## The schoolbook coefficients (R122) -/

/-- A row of the schoolbook product meets degree `m` in one column at most. -/
theorem sum_degree_le {f : Nat → Nat} {B : Nat} (hf : ∀ j, f j ≤ B) (i m n : Nat) :
    ((List.range n).map fun j => if i + j = m then f j else 0).sum ≤ B := by
  induction n with
  | zero => simp
  | succ n ih =>
    rw [List.range_succ, List.map_append, List.sum_append]
    by_cases hn : i + n = m
    · have hbefore : ((List.range n).map fun j => if i + j = m then f j else 0).sum = 0 := by
        refine List.sum_eq_zero fun x hx => ?_
        obtain ⟨j, hj, rfl⟩ := List.mem_map.mp hx
        have hlt := List.mem_range.mp hj
        exact if_neg (by omega)
      simpa [hbefore, hn] using hf n
    · simpa [hn] using ih

/-- Eight rows, each with one product of limbs below `2^57` at most. -/
theorem schoolbook_le_of_WR {a b : Elem} (ha : WR a) (hb : WR b) (m : Nat) : schoolbook a b m ≤ 2 ^ 117 := by
  have hproduct : ∀ i j, (a.limb i).toNat * (b.limb j).toNat ≤ 2 ^ 57 * 2 ^ 57 := fun i j =>
    Nat.mul_le_mul (Machine.limb_lt_of_WR ha i).le (Machine.limb_lt_of_WR hb j).le
  exact Machine.sum_map_le _ (2 ^ 57 * 2 ^ 57) (List.range 8) fun i _ => sum_degree_le (hproduct i) i m 8

theorem reducedCoefficient_lt_of_WR {a b : Elem} (ha : WR a) (hb : WR b) (k : Nat) :
    reducedCoefficient a b k < 2 ^ 120 := by
  have hS := schoolbook_le_of_WR ha hb
  have h0 := hS k
  have h4 := hS (k + 4)
  have h8 := hS (k + 8)
  have h12 := hS (k + 12)
  rw [reducedCoefficient]
  split <;> omega

/-! ## SQRN with `n` = 0 (R65) -/

theorem illegalByR65_of_zero_count {w : Word} (hop : bitRange w 7 0 = 0x0a) (hcount : bitRange w 39 32 = 0) :
    IllegalByR65 w := by
  simp [IllegalByR65, hop, hcount]

theorem illegalByR65_encode_sqrn_zero (rd ra : Reg) : IllegalByR65 (encode (.sqrn rd ra 0)) := by
  apply illegalByR65_of_zero_count
  · rw [← toNat_opField, encode, opField_assemble]
    rfl
  · rw [← sqrnCount_eq_zero_iff, encode, immField_assemble]
    rfl

end Sys2Proof

namespace Sys2Proof.Machine

/-! ## The coefficient stage (R122) -/

/-- Settles O32: nothing wraps, so the coefficients are the reduced schoolbook ones, and these represent the product. -/
theorem coefficientStage : Obligations.CoefficientStage := by
  intro a b ha hb
  rw [mulCoef_of_WR ha hb]
  refine ⟨rfl, fun x hx => ?_, reducedCoefficient_mod a b⟩
  obtain ⟨k, -, rfl⟩ := List.mem_map.mp hx
  exact reducedCoefficient_lt_of_WR ha hb k

/-! ## MUL and SQR (R123, R124) -/

theorem exec_mul (rd ra rb : Reg) (s : State) :
    exec (.mul rd ra rb) s = .next (s.writeReg rd (mulElem (s.reg ra) (s.reg rb))).retire := rfl

theorem exec_sqr (rd ra : Reg) (s : State) :
    exec (.sqr rd ra) s = .next (s.writeReg rd (sqrElem (s.reg ra))).retire := rfl

theorem WRWithin_mulElem (a b : Elem) : WRWithin 1 (mulElem a b) :=
  WRWithin_rippleFoldTwice (length_mulCoef a b) (mulCoef_lt a b)

/-- Settles O33: coefficients of any operands are below `2^128`, so two passes of `RF` leave a carry of at most 1; the
residue is that of the coefficients. -/
theorem mulResult : Obligations.MulResult := fun rd ra rb s =>
  ⟨opField_assemble _ _ _ _ _, mulElem (s.reg ra) (s.reg rb), rfl, exec_mul rd ra rb s, WRWithin_mulElem _ _,
    residue_mulElem⟩

/-- Settles O34: SQR is the MUL datapath on equal operands. -/
theorem sqrResult : Obligations.SqrResult := fun rd ra s =>
  ⟨opField_assemble _ _ _ _ _, by rw [exec_sqr, exec_mul, sqrElem_eq], sqrElem (s.reg ra), rfl, exec_sqr rd ra s,
    WR_sqrElem _, residue_sqrElem⟩

/-! ## SQRN (R125) -/

theorem sqrnElem_eq_iterate (n : Nat) (a : Elem) : sqrnElem n a = sqrElem^[n] a := by
  induction n generalizing a with
  | zero => rfl
  | succ n ih => rw [sqrnElem, ih, Function.iterate_succ_apply]

theorem exec_sqrn_one (rd ra : Reg) (s : State) : exec (.sqrn rd ra 1) s = exec (.sqr rd ra) s := by
  rw [exec_sqrn rd ra (by decide), exec_sqr]
  rfl

/-- Settles O35: SQRN iterates SQR, which leaves a weakly reduced element whatever it is given, and on a weakly reduced
one squares the residue. -/
theorem sqrnResult : Obligations.SqrnResult := by
  refine fun rd ra n s => ⟨fun hn => ?_, exec_sqrn_one rd ra s, illegalByR65_encode_sqrn_zero rd ra⟩
  have hcount : n.toNat ≠ 0 := fun h => hn (BitVec.eq_of_toNat_eq h)
  exact ⟨opField_assemble _ _ _ _ _, sqrnElem n.toNat (s.reg ra), sqrnElem_eq_iterate _ _, exec_sqrn rd ra hn s,
    WR_sqrnElem hcount _, fun ha => (sqrnElem_spec _ ha).2⟩

/-! ## MULW (R126) -/

theorem exec_mulw (rd ra : Reg) (w : BitVec 32) (s : State) :
    exec (.mulw rd ra w) s = .next (s.writeReg rd (mulwElem (s.reg ra) w)).retire := rfl

/-- The coefficients of MULW have 96 bits for any limbs, so two passes of `RF` leave a carry of at most 1 (R126). -/
theorem WRWithin_mulwElem (a : Elem) (w : BitVec 32) : WRWithin 1 (mulwElem a w) := by
  refine WRWithin_rippleFoldTwice (by simp) fun x hx => ?_
  obtain ⟨y, hy, rfl⟩ := List.mem_map.mp hx
  calc w.toNat * y < 2 ^ 32 * 2 ^ 64 := Nat.mul_lt_mul'' w.isLt (a.nats_lt y hy)
    _ < 2 ^ 128 := by decide

/-- Settles O36: the value of the coefficients is `w` times that of the operand, and `RF` keeps the residue. -/
theorem mulwResult : Obligations.MulwResult := fun rd ra w s =>
  ⟨opField_assemble _ _ _ _ _, mulwElem (s.reg ra) w, rfl, exec_mulw rd ra w s, WRWithin_mulwElem _ w,
    (mulwElem_spec _ w).2⟩

end Sys2Proof.Machine
end

section
/-! PROOFS. The result of ISR (spec 43_isr.md R142). -/

namespace Sys2Proof.Machine

/-- The last step of the chain is a product, so the candidate is within `M56 + 1` for any operand (R142). -/
theorem WRWithin_isrCandidate (x : Elem) : WRWithin 1 (isrCandidate x) := WRWithin_mulElem _ _

/-- Settles O37: the candidate is a product and the mask an equality mask, whatever the operand; on a weakly reduced one
the chain raises its residue to `(p − 3)/4` and the check to `(p − 1)/2`. -/
theorem isrResult : Obligations.IsrResult := by
  intro rd ra s
  refine ⟨opField_assemble _ _ _ _ _, isrCandidate (s.reg ra), _, exec_isr rd ra s, WRWithin_isrCandidate _,
    maskOf_cases _, fun h => ⟨(isrCandidate_spec h).power, ?_⟩⟩
  have hmask := isr_mask_eq_all1_iff h (exec_isr rd ra s)
  rwa [State.retire_mask, State.writeMask_mask] at hmask

end Sys2Proof.Machine
end

section
/-! PROOFS. SER and DESER (spec 44_serdes.md): the bytes that SER stores and those it leaves, when it faults, what DESER
admits, and the round trips between registers and bytes. -/

namespace Sys2Proof

theorem residue_limbsOf {v : Nat} (h : v < modulus) : residue (limbsOf v) = v := by
  simpa [Nat.mod_eq_of_lt h] using residue_limbsOf_mod v

theorem residue_lt_pow (a : Elem) : residue a < 2 ^ 448 := (residue_lt a).trans modulus_lt

end Sys2Proof

namespace Sys2Proof.Machine

set_option exponentiation.threshold 1000

/-! ## The bytes of the buffer after SER (R151, R152) -/

/-- A byte of a serialized value (R151). -/
theorem getElem_elemBytes_limbsOf {v k : Nat} (hv : v < 2 ^ 448) (hk : k < (elemBytes (limbsOf v)).length) :
    (elemBytes (limbsOf v))[k] = BitVec.ofNat 8 (v / 2 ^ (8 * k) % 256) := by
  have hwrap : BitVec.ofNat 8 (v / 2 ^ (8 * k) % 256) = BitVec.ofNat 8 (v / 2 ^ (8 * k)) :=
    BitVec.eq_of_toNat_eq (by simp)
  simp [elemBytes_limbsOf hv, natBytes, hwrap]

theorem storedBytes_ser_le (ra : Reg) (h : Bool) : (Instr.ser ra h).storedBytes ≤ 57 := by
  cases h
  all_goals simp [Instr.storedBytes]

section
variable {b : Memory} (hb : b.wf) (r : Elem) (h : Bool)
include hb

theorem read_serBuffer_of_lt {k : Nat} (hk : k < 56) :
    (serBuffer b r h).read k = (elemBytes r)[k]'(by simpa using hk) := by
  rw [read_serBuffer hb, if_neg (by omega), dif_pos hk]

theorem read_serBuffer_last : (serBuffer b r h).read 56 = if h then 0 else b.read 56 := by
  rw [read_serBuffer hb, dif_neg (by decide)]
  simp

theorem read_serBuffer_of_storedBytes_le {k : Nat} (ra : Reg) (hk : (Instr.ser ra h).storedBytes ≤ k) :
    (serBuffer b r h).read k = b.read k := by
  rw [read_serBuffer hb]
  cases h
  case false =>
    have hk56 : 56 ≤ k := hk
    rw [if_neg nofun, dif_neg (by omega)]
  case true =>
    have hk57 : 57 ≤ k := hk
    rw [if_neg (by omega), dif_neg (by omega)]

end

/-! ## When SER completes, and when it faults (R152) -/

section
variable {ra : Reg} {h : Bool} {s : State}

theorem exec_ser_completes (hclear : h = false → residue (s.reg ra) ≤ halfModulus) :
    exec (.ser ra h) s = .next (s.writeB (serBuffer s.b (limbsOf (residue (s.reg ra))) h)).retire := by
  rw [exec_ser, if_neg]
  rintro ⟨hform, hset⟩
  exact absurd (hclear hform) (Nat.not_le.mpr hset)

theorem exec_ser_faults (hset : halfModulus < residue (s.reg ra)) :
    exec (.ser ra false) s = .next (s.enterFault .assertSerHibit) := by
  rw [exec_ser, if_pos ⟨rfl, hset⟩]

end

/-- Settles O41, by the byte of the buffer at each address after a SER that completes. -/
theorem serResult : Obligations.SerResult := by
  intro ra h s hb hclear
  refine ⟨opField_assemble _ _ _ _ _, _, exec_ser_completes hclear, serBuffer_wf hb _ h, fun k hk => ?_,
    read_serBuffer_last hb _ h, fun k hk => ?_⟩
  · rw [read_serBuffer_of_lt hb _ h hk, getElem_elemBytes_limbsOf (residue_lt_pow _)]
  · exact read_serBuffer_of_storedBytes_le hb _ h ra ((storedBytes_ser_le ra h).trans hk)

/-- Settles O42: the assertion fails before any byte is written. -/
theorem serFaultsOnHibit : Obligations.SerFaultsOnHibit := fun _ _ hset => exec_ser_faults hset

/-- Settles O51: a SER that faults writes nothing, and one that completes stores its own bytes only. -/
theorem serFrame : Obligations.SerFrame := by
  intro ra h s t hb ht
  by_cases hclear : h = false → residue (s.reg ra) ≤ halfModulus
  · obtain rfl := next_inj ((exec_ser_completes hclear).symm.trans ht)
    exact ⟨fun _ => rfl, rfl, fun k hk => read_serBuffer_of_storedBytes_le hb _ h ra hk, fun _ => ⟨rfl, rfl⟩,
      rfl, rfl, rfl, rfl, rfl⟩
  · obtain ⟨rfl, hset⟩ := Classical.not_imp.mp hclear
    obtain rfl := next_inj ((exec_ser_faults (Nat.lt_of_not_le hset)).symm.trans ht)
    have hfaults : ¬(false = true ∨ residue (s.reg ra) ≤ halfModulus) := by simpa using hset
    exact ⟨fun _ => rfl, rfl, fun _ _ => rfl, fun h => absurd h hfaults, rfl, rfl, rfl, rfl, rfl⟩

/-! ## What DESER admits (R153) -/

theorem Memory.deserAccepts_iff {b : Memory} {h : Bool} {nm : Byte} : b.deserAccepts h nm = true ↔
    b.deserValue h nm < modulus ∧ (h = true → b.finalByte h nm = 0) ∧
      (h = false → b.deserValue h nm ≤ halfModulus) := by
  cases h
  all_goals simp [Memory.deserAccepts]

/-- Settles O43: the mask of the equation of DESER is the admission condition, and an admitted value is below `p`. -/
theorem deserResult : Obligations.DeserResult := fun rd h nm s =>
  ⟨opField_assemble _ _ _ _ _, exec_deser rd h nm s, s.b.deserValue_lt h nm, canonWR_limbsOf _,
    fun haccepts => canon_limbsOf (Memory.deserAccepts_iff.mp haccepts).1⟩

/-! ## From a register to bytes and back (R154) -/

theorem Memory.finalByte_of_unmasked (b : Memory) (h : Bool) : b.finalByte h 0 = b.read (if h then 56 else 55) :=
  BitVec.and_allOnes

/-- With no bit masked, both forms of DESER read the little-endian value of 56 bytes. -/
theorem Memory.deserValue_of_unmasked (b : Memory) (h : Bool) : b.deserValue h 0 = b.littleEndian 56 := by
  cases h
  case true => rfl
  case false =>
    rw [Memory.deserValue, b.finalByte_of_unmasked]
    simp [Memory.littleEndian, b.readBytes_succ 55, bytesNat_append, bytesNat]

/-- DESER reads back the value that SER of the same form stored, and admits what that form of SER admits. -/
theorem deser_serBuffer {b : Memory} (hb : b.wf) {h : Bool} {v : Nat} (hv : v < modulus)
    (hclear : h = false → v ≤ halfModulus) :
    (serBuffer b (limbsOf v) h).deserValue h 0 = v ∧ (serBuffer b (limbsOf v) h).deserAccepts h 0 = true := by
  have hvalue : (serBuffer b (limbsOf v) h).deserValue h 0 = v := by
    rw [Memory.deserValue_of_unmasked, littleEndian_serBuffer hb (hv.trans modulus_lt)]
  refine ⟨hvalue, Memory.deserAccepts_iff.mpr ⟨by rwa [hvalue], fun hform => ?_, by rwa [hvalue]⟩⟩
  simp only [Memory.finalByte_of_unmasked, hform, if_true, read_serBuffer_last hb]

/-- SER, then DESER of the same form, gives the canonical element of the residue (R154 items 1 and 2). -/
theorem ser_then_deser (ra rd : Reg) {h : Bool} {s : State} (hb : s.b.wf)
    (hclear : h = false → residue (s.reg ra) ≤ halfModulus) :
    ∃ t u, exec (.ser ra h) s = .next t ∧ exec (.deser rd h 0) t = .next u ∧
      u.reg rd = limbsOf ((s.reg ra).val % modulus) ∧ u.mask = all1 := by
  obtain ⟨hvalue, haccepts⟩ := deser_serBuffer hb (residue_lt _) hclear
  refine ⟨_, _, exec_ser_completes hclear, exec_deser rd h 0 _, ?_,
    maskOf_eq_all1.mpr haccepts⟩
  exact (State.reg_writeReg_same _ _ _).trans (congrArg limbsOf hvalue)

/-! ## From bytes to a register and back (R154) -/

theorem Memory.elemBytes_deserValue (b : Memory) (h : Bool) (nm : Byte) :
    elemBytes (limbsOf (b.deserValue h nm)) = (deserBytes b h nm).take 56 := by
  obtain ⟨hvalue, hlen, -⟩ := b.deserBytes_spec h nm
  refine eq_of_bytesNat (by simp [hlen]) ?_
  have hlow := bytesNat_take_drop (deserBytes b h nm) 0 56 hlen
  rw [bytesNat_elemBytes (b.deserValue_lt h nm), ← hvalue]
  simpa using hlow.symm

/-- The bytes that DESER reads, one by one: `hi_nmask` reaches the final byte only. -/
theorem Memory.getElem_deserBytes (b : Memory) {h : Bool} {nm : Byte} {k : Nat} (hk : k < 56)
    (hlen : k < (deserBytes b h nm).length) :
    (deserBytes b h nm)[k] = if h = false ∧ k = 55 then b.read k &&& ~~~nm else b.read k := by
  cases h
  case false => simp [deserBytes, List.getElem_modify, Memory.readBytes, @eq_comm Nat k]
  case true => simp [deserBytes, Memory.readBytes, show 56 ≠ k by omega]

/-- SER of an admitted value stores the bytes it was read from, the final one masked (R154 item 3). -/
theorem ser_of_deserAccepts {ra : Reg} {h : Bool} {nm : Byte} {b : Memory} {t : State} (hb : t.b.wf)
    (hreg : t.reg ra = limbsOf (b.deserValue h nm)) (haccepts : b.deserAccepts h nm = true) :
    ∃ u, exec (.ser ra h) t = .next u ∧ u.status = t.retire.status ∧
      (∀ k, k < 56 → u.b.read k = (if h = false ∧ k = 55 then b.read k &&& ~~~nm else b.read k)) ∧
      (h = true → u.b.read 56 = 0) := by
  obtain ⟨hlt, -, hhalf⟩ := Memory.deserAccepts_iff.mp haccepts
  have hres : residue (t.reg ra) = b.deserValue h nm := by rw [hreg, residue_limbsOf hlt]
  refine ⟨_, exec_ser_completes (by rwa [hres]), rfl, fun k hk => ?_, fun hform => ?_⟩
  · simp only [State.retire_b, State.writeB_b, read_serBuffer_of_lt hb _ h hk, hres, Memory.elemBytes_deserValue,
      List.getElem_take, Memory.getElem_deserBytes b hk]
  · simp [read_serBuffer_last hb, hform]

/-- Settles O44: the bytes of a residue read as that residue, an admitted value is serialized as the bytes it was read
from, and its limbs are canonical, so SRED leaves them as they are. -/
theorem serializationRoundTrips : Obligations.SerializationRoundTrips := by
  intro ra rd s hb
  refine ⟨ser_then_deser ra rd hb nofun, fun hclear => ser_then_deser ra rd hb fun _ => hclear, exec_ser_faults,
    fun h nm t ht hmask => ?_⟩
  obtain rfl := next_inj ((exec_deser rd h nm s).symm.trans ht)
  have haccepts : s.b.deserAccepts h nm = true := maskOf_eq_all1.mp hmask
  have hcanon := canon_limbsOf (Memory.deserAccepts_iff.mp haccepts).1
  refine ⟨ser_of_deserAccepts hb (by simp) haccepts, ?_⟩
  rw [exec_sred_of_CANON (by simpa using hcanon), State.retire_retire]

end Sys2Proof.Machine
end

section
/-! PROOFS. The faults of commands (spec 60_exceptions.md R171 to R173): which command raises one, and what it leaves. -/

namespace Sys2Proof.Machine

/-- Inversion of a fault: a command that raises one is SER without `with_hibit` above `(p − 1)/2`, and does nothing but
enter the fault ASSERT_SER_HIBIT (R171, R172). -/
theorem exec_raises_fault {i : Instr} {s t : State} (hwf : i.wf = true) (hclear : s.status.fault = false)
    (ht : exec i s = .next t) (hfault : t.status.fault = true) :
    ∃ ra, i = .ser ra false ∧ halfModulus < residue (s.reg ra) ∧ t = s.enterFault .assertSerHibit := by
  by_cases hser : ∀ ra, i = .ser ra false → residue (s.reg ra) ≤ halfModulus
  · obtain ⟨u, hu, hstatus, -, -⟩ := everyCommandCompletes i s hwf hser
    obtain rfl := next_inj (hu.symm.trans ht)
    simp [hstatus, hclear] at hfault
  · push Not at hser
    obtain ⟨ra, rfl, hset⟩ := hser
    exact ⟨ra, rfl, hset, next_inj (ht.symm.trans (exec_ser_faults hset))⟩

/-- Settles O47: the next state of a command that faults is the fault entry of SER's assertion. -/
theorem onlySerFaults : Obligations.OnlySerFaults := by
  intro i s t hwf hclear ht hfault
  obtain ⟨ra, hi, hset, rfl⟩ := exec_raises_fault hwf hclear ht hfault
  exact ⟨⟨ra, hi, hset⟩, rfl, rfl, rfl, rfl, rfl⟩

end Sys2Proof.Machine
end

section
/-! PROOFS. Reset and hazards (spec 70_reset_and_hazards.md): runs of the machine, a fault that only a reset ends, the
state after reset, a command that is waited for, its duration, weak reduction as an invariant, and HIBIT before SER. -/

namespace Sys2Proof.Machine

/-! ## Runs -/

section
variable {M : Host.Core} {k : Nat} {s s' t : M.State}

theorem run_succ_of_step (h : M.step s = .next s') : M.run (k + 1) s = M.run k s' := by
  rw [Host.Core.run, h]

theorem exists_step_of_run_succ (h : M.run (k + 1) s = .next t) : ∃ s', M.step s = .next s' ∧ M.run k s' = .next t := by
  rw [Host.Core.run] at h
  split at h
  next s' hstep => exact ⟨s', hstep, h⟩
  all_goals cases h

theorem run_one (s : M.State) : M.run 1 s = M.step s := by
  rw [Host.Core.run]
  cases M.step s <;> rfl

theorem run_add {j : Nat} (h : M.run k s = .next s') : M.run (k + j) s = M.run j s' := by
  induction k generalizing s with
  | zero =>
    obtain rfl : s = s' := by injection h
    rw [Nat.zero_add]
  | succ k ih =>
    obtain ⟨u, hstep, hrun⟩ := exists_step_of_run_succ h
    rw [Nat.add_right_comm, run_succ_of_step hstep, ih hrun]

end

/-! ## Steps without an operation of the host, and reset (R190) -/

theorem step_reset {s : State} {rest : List HostOp} (hh : s.host = .reset :: rest) :
    step s = .next (State.applyReset rest) := by
  simp only [step, advance, hh]

theorem step_of_host_nil {s : State} (hh : s.host = []) (ht : s.phase = .busy → s.left ≠ 0) :
    step s = .next { s with left := if s.phase = .busy then s.left - 1 else s.left, reply := none } := by
  have hdue : ¬(s.phase = .busy ∧ s.left = 0) := fun ⟨hp, hl⟩ => ht hp hl
  simp only [step, advance, hostTurn, hh, if_neg hdue]
  cases hp : s.phase <;> simp [State.served, State.elapse, hh]

@[simp] theorem State.reg_reset (r : Reg) : State.reset.reg r = zero := State.reg_applyReset [] r

@[simp] theorem State.readLimb_reset (r : Reg) (i : LimbIx) : State.reset.readLimb r i = 0 := by
  rw [State.readLimb, State.reg_reset]
  exact Vector.getElem_replicate i.isLt

/-! ## After a fault (R198) -/

section
variable {s : State} (hp : s.phase = .faulted)
include hp

/-- Inversion of a step in FAULTED: without a reset it only serves the host. -/
theorem eq_served_of_step_faulted {t : State} (hh : s.host.head? ≠ some .reset) (h : step s = .next t) :
    ∃ r, t = s.served s.host.tail r := by
  rcases step_cases h with ⟨rest, hreset, _⟩ | ⟨hbusy, _⟩ | ⟨hbusy, _⟩ | ⟨_, hserved⟩ | ⟨hidle, _⟩
  · simp [hreset] at hh
  · simp [hp] at hbusy
  · simp [hp] at hbusy
  · exact hserved
  · simp [hp] at hidle

/-- In FAULTED every operation that has an access gets a step, and so has a host without an operation. -/
theorem exists_step_faulted (ha : ∀ op, s.host.head? = some op → ∃ a, op.access = .ok a) : ∃ t, step s = .next t := by
  cases hh : s.host with
  | nil => exact ⟨_, step_of_host_nil hh (by simp [hp])⟩
  | cons op rest =>
    obtain ⟨a, hacc⟩ := ha op (by simp [hh])
    by_cases hr : a = .reset
    · subst hr
      rw [HostOp.eq_reset_of_access hacc] at hh
      exact ⟨_, step_reset hh⟩
    · exact ⟨_, step_served (by simp [hp]) hh hacc hr⟩

/-- Without a reset among its operations the host is all that a run changes. -/
theorem eq_served_of_run_faulted {k : Nat} {t : State} (hr : HostOp.reset ∉ s.host)
    (h : Host.Core.run Sys2Proof.core k s = .next t) : ∃ rest r, t = s.served rest r := by
  induction k generalizing s with
  | zero => exact ⟨s.host, s.reply, (next_inj h).symm⟩
  | succ k ih =>
    obtain ⟨u, hstep, hrun⟩ := exists_step_of_run_succ h
    obtain ⟨r, rfl⟩ := eq_served_of_step_faulted hp (fun hh => hr (List.mem_of_head? hh)) hstep
    obtain ⟨rest, r', rfl⟩ := ih (s := s.served s.host.tail r) hp (fun hm => hr (List.mem_of_mem_tail hm)) hrun
    exact ⟨rest, r', rfl⟩

theorem exists_run_faulted (k : Nat) (hr : HostOp.reset ∉ s.host) (ha : ∀ op ∈ s.host, ∃ a, op.access = .ok a) :
    ∃ t, Host.Core.run Sys2Proof.core k s = .next t := by
  induction k generalizing s with
  | zero => exact ⟨s, rfl⟩
  | succ k ih =>
    obtain ⟨u, hstep⟩ := exists_step_faulted hp fun op hop => ha op (List.mem_of_head? hop)
    obtain ⟨r, rfl⟩ := eq_served_of_step_faulted hp (fun hh => hr (List.mem_of_head? hh)) hstep
    obtain ⟨t, hrun⟩ := ih (s := s.served s.host.tail r) hp (fun hm => hr (List.mem_of_mem_tail hm))
      fun op hop => ha op (List.mem_of_mem_tail hop)
    exact ⟨t, (run_succ_of_step hstep).trans hrun⟩

end

/-- Settles O13, by induction on the number of steps: each serves the host and leaves the phase FAULTED. -/
theorem faultIsFinal : Obligations.FaultIsFinal := by
  intro k s hp hr
  refine ⟨fun t ht => ?_, exists_run_faulted hp k hr⟩
  obtain ⟨rest, r, rfl⟩ := eq_served_of_run_faulted hp hr ht
  exact ⟨hp, rfl, rfl, rfl, rfl⟩

/-- Settles O15: the reset step by definition, its state field by field, and the inversion of a step in FAULTED. -/
theorem resetClearsEverything : Obligations.ResetClearsEverything := by
  refine ⟨fun _ _ hh => step_reset hh, State.readLimb_reset, Memory.read_nil, rfl, rfl, rfl, fun s t hp hstep hexit => ?_,
    fun _ hh ht => step_of_host_nil hh ht⟩
  by_contra hh
  obtain ⟨r, rfl⟩ := eq_served_of_step_faulted hp hh hstep
  exact hexit hp

theorem CANON_zero : CANON zero := by decide +kernel

/-- Settles O16: every register is the element 0. -/
theorem resetRegistersAreCanonicalZero : Obligations.ResetRegistersAreCanonicalZero := by
  intro r
  rw [State.reg_reset]
  exact ⟨CANON_zero, WR_of_CANON CANON_zero, rfl, rfl⟩

/-! ## A command that is waited for (R72, R195) -/

/-- Each poll of the waiting host takes one step off the time left; at 0 the command in flight completes. -/
theorem run_wait_completes {s : State} {i : Instr} {rest : List HostOp} (hp : s.phase = .busy)
    (hh : s.host = .wait :: rest) (hd : decode s.cmd = .ok i) :
    Host.Core.run Sys2Proof.core (s.left + 1) s = exec i { s with left := 0, reply := none } := by
  induction hl : s.left generalizing s with
  | zero =>
    have hdone := step_completion hp hl (by simp [hh]) hd
    rw [hl] at hdone
    exact (run_one (M := Sys2Proof.core) s).trans hdone
  | succ n ih =>
    obtain ⟨-, -, -, -, hpoll⟩ := hostReadsMaskAndStatus s rest
    have hpolled := hpoll hp (by omega) hh
    rw [← ih (s := { s with left := s.left - 1, reply := some (.word s.status.word) }) hp hh hd (by simp [hl])]
    exact run_succ_of_step hpolled

/-- Settles O9: the issue, the run of the waiting host to the completion, and the end of the wait. -/
theorem waitedCommandCompletes : Obligations.WaitedCommandCompletes := by
  intro s w i rest hp hd hh
  obtain ⟨t, hexec, hbusy, hhost⟩ := exec_next { s with
    status := { s.status with busy := true }, cmd := w, left := 0, host := .wait :: rest, reply := none } (wf_of_decode hd)
  have hrun : Host.Core.run Sys2Proof.core (commandDuration w + 2) s = .next t := by
    have hissue := legalIssueMakesBusy s w i _ hp hh hd
    refine (run_succ_of_step hissue).trans ((run_wait_completes ?_ rfl hd).trans hexec)
    exact State.phase_eq_busy.mpr ⟨(State.phase_eq_idle.mp hp).1, rfl⟩
  refine ⟨t, hexec, hbusy, hrun, ?_⟩
  have hout : t.phase ≠ .busy := fun hq => by simp [State.phase_eq_busy, hbusy] at hq
  exact (run_add (j := 1) hrun).trans ((run_one (M := Sys2Proof.core) t).trans (step_wait_ends hout hhost))

/-! ## Duration (R196) -/

theorem extractLsb'_eq_of_bitRange_eq {w v : Word} {hi lo n : Nat} (hn : hi - lo + 1 = n)
    (h : bitRange w hi lo = bitRange v hi lo) : w.extractLsb' lo n = v.extractLsb' lo n := by
  subst hn
  apply BitVec.eq_of_toNat_eq
  rwa [← bitRange_eq_toNat, ← bitRange_eq_toNat]

/-- Settles O10: the duration reads the opcode and, for SQRN, the count. -/
theorem durationDependsOnOpcodeAndCount : Obligations.DurationDependsOnOpcodeAndCount := by
  intro w v hop hcount
  have hopField : opField w = opField v := extractLsb'_eq_of_bitRange_eq rfl hop
  unfold commandDuration
  rw [hopField]
  split
  next hsqrn =>
    have hn : bitRange w 39 32 = bitRange v 39 32 := hcount (by rw [← toNat_opField, hopField, hsqrn]; rfl)
    rw [extractLsb'_eq_of_bitRange_eq rfl hn]
  next => rfl

/-! ## Weak reduction, one rule per state operation (R194) -/

@[simp] theorem State.reg_issueCommand (s : State) (w : Word) (q : Reg) : (s.issueCommand w).reg q = s.reg q := by
  unfold State.issueCommand
  split <;> rfl

theorem State.allWR_applyReset (rest : List HostOp) : (State.applyReset rest).allWR := by
  intro r
  rw [State.reg_applyReset]
  exact WR_of_CANON CANON_zero

theorem WR_set {a : Elem} (h : WR a) {i : LimbIx} {v : Word}
    (hv : v.toNat ≤ (if i.val = 0 ∨ i.val = 4 then m56 + 256 else m56)) : WR (a.set i.val v) := by
  intro j
  by_cases hij : i = j
  · subst hij
    rwa [Vector.getElem_set_self]
  · rw [Vector.getElem_set_ne _ _ fun e => hij (Fin.ext e)]
    exact h j

section
variable {s : State} (hs : s.allWR)
include hs

theorem State.allWR_writeReg (r : Reg) {v : Elem} (hv : WR v) : (s.writeReg r v).allWR := by
  intro q
  by_cases hq : q = r
  · subst hq
    rwa [State.reg_writeReg_same]
  · rw [State.reg_writeReg_ne _ _ _ _ hq]
    exact hs q

/-- A write that the host may make in IDLE (`HostOp.keepsWR`). -/
theorem State.allWR_writePort {op : HostOp} {p : Port} {v : Word} (ha : op.access = .ok (.write p v))
    (hop : op.keepsWR) : (s.writePort p v).allWR := by
  cases p with
  | limb r i =>
    simp only [HostOp.keepsWR, ha] at hop
    exact State.allWR_writeReg hs r (WR_set (hs r) hop)
  | cmd =>
    intro q
    rw [State.writePort, State.reg_issueCommand]
    exact hs q
  | byte | status | mask => exact hs

/-- A completing or faulting command writes weakly reduced registers only. -/
theorem State.allWR_exec {i : Instr} (hwf : i.wf = true) {t : State} (ht : exec i s = .next t) : t.allWR := by
  rcases exec_cases i s hwf with ⟨rd, v, _, _, _, hv, he⟩ | ⟨m, _, _, _, _, he⟩ | ⟨rd, v, m, _, _, _, hv, _, he⟩ |
    ⟨ra, h, rfl⟩
  · obtain rfl := next_inj (he.symm.trans ht)
    exact State.allWR_writeReg hs rd hv
  · obtain rfl := next_inj (he.symm.trans ht)
    exact hs
  · obtain rfl := next_inj (he.symm.trans ht)
    exact State.allWR_writeReg hs rd hv
  · obtain rfl := next_inj ((exec_ser ra h s).symm.trans ht)
    split
    · exact hs
    · exact hs

end

/-- Settles O56: each thing a step can do (`step_cases`) keeps weak reduction by the rule of its operation. -/
theorem stepKeepsWeakReduction : Obligations.StepKeepsWeakReduction := by
  intro s t hs hop hstep
  rcases step_cases hstep with ⟨rest, _, rfl⟩ | ⟨_, _, i, hd, he⟩ | ⟨_, _, rest, r, rfl⟩ | ⟨_, r, rfl⟩ |
    ⟨hp, op, rest, p, v, hh, ha, rfl⟩
  · exact State.allWR_applyReset rest
  · exact State.allWR_exec (s := { s with reply := none }) hs (wf_of_decode hd) he
  · exact hs
  · exact hs
  · exact State.allWR_writePort hs ha (hop hp op (by rw [hh]; rfl))

/-! ## HIBIT before SER (R199) -/

theorem mask_hibit_eq_all1_iff {ra : Reg} {s t : State} (h : WR (s.reg ra)) (ht : exec (.hibit ra) s = .next t) :
    t.mask = all1 ↔ halfModulus < residue (s.reg ra) := by
  obtain rfl := next_inj ((exec_hibit ra s).symm.trans ht)
  rw [State.retire_mask, State.writeMask_mask, maskOf_eq_all1, beq_iff_eq, double_odd_iff_of_WR h]

theorem fault_ser_iff {ra : Reg} {s u : State} (hclear : s.status.fault = false)
    (hu : exec (.ser ra false) s = .next u) : u.status.fault = true ↔ halfModulus < residue (s.reg ra) := by
  constructor
  · intro hfault
    obtain ⟨_, hi, hset, _⟩ := exec_raises_fault rfl hclear hu hfault
    cases hi
    exact hset
  · intro hset
    obtain rfl := next_inj ((exec_ser_faults hset).symm.trans hu)
    rfl

/-- Settles O45: both are the comparison of the residue with `(p − 1)/2`. -/
theorem hibitPredictsSerFault : Obligations.HibitPredictsSerFault := fun _ _ _ _ hwr hclear ht hu =>
  (mask_hibit_eq_all1_iff hwr ht).trans (fault_ser_iff hclear hu).symm

end Sys2Proof.Machine
end

section
/-! PROOFS. The corner cases of ISR: zero, non-residues, −1, 4 and pairs of negatives (spec 43_isr.md R143). -/

namespace Sys2Proof

/-! ## Euler's power of a number and of its negative -/

theorem odd_halfModulus : Odd halfModulus := Nat.odd_iff.mpr (by decide +kernel)

theorem odd_isrExponent : Odd isrExponent := Nat.odd_iff.mpr (by decide +kernel)

/-- An odd power of the negative is the negative of the power. -/
theorem pow_mod_add_pow_mod_of_odd {p v w n : ℕ} (hp : p.Prime) (hn : Odd n) (hv : v ≠ 0) (hvp : v < p)
    (hsum : v + w = p) : v ^ n % p + w ^ n % p = p := by
  have hdvd : p ∣ v ^ n % p + w ^ n % p := by
    rw [Nat.dvd_iff_mod_eq_zero, ← Nat.add_mod, ← Nat.dvd_iff_mod_eq_zero]
    exact hsum ▸ hn.nat_add_dvd_pow_add_pow v w
  have hpow : v ^ n % p ≠ 0 := fun h =>
    Nat.not_dvd_of_pos_of_lt (Nat.pos_of_ne_zero hv) hvp (hp.dvd_of_dvd_pow (Nat.dvd_of_mod_eq_zero h))
  have hlt : ∀ x, x % p < p := fun x => Nat.mod_lt x hp.pos
  exact Nat.eq_of_dvd_of_lt_two_mul (by omega) hdvd (by linarith [hlt (v ^ n), hlt (w ^ n)])

/-- 0 to an odd power is 0 (R143 item 1). -/
theorem zero_pow_mod_of_odd {p n : ℕ} (hn : Odd n) : 0 ^ n % p = 0 := by
  rw [zero_pow hn.pos.ne', Nat.zero_mod]

/-- −1 to an odd power is −1 (R143 item 4). -/
theorem pred_pow_mod_of_odd {p n : ℕ} (hp : p.Prime) (hn : Odd n) : (p - 1) ^ n % p = p - 1 := by
  have hone := hp.one_lt
  have hsum := pow_mod_add_pow_mod_of_odd hp hn one_ne_zero hone (Nat.add_sub_of_le hone.le)
  rw [one_pow, Nat.mod_eq_of_lt hone] at hsum
  omega

/-- Euler's power of a non-zero number is 1 or −1. -/
theorem pow_half_mod_eq_one_or {p v : ℕ} (hp : p.Prime) (hv : v ≠ 0) (hvp : v < p) :
    v ^ (p / 2) % p = 1 ∨ v ^ (p / 2) % p = p - 1 := by
  have : Fact p.Prime := ⟨hp⟩
  have hcast : (v : ZMod p) ≠ 0 := fun h =>
    Nat.not_dvd_of_pos_of_lt (Nat.pos_of_ne_zero hv) hvp ((ZMod.natCast_eq_zero_iff v p).mp h)
  refine (ZMod.pow_div_two_eq_neg_one_or_one p hcast).imp (fun h => ?_) (fun h => ?_)
  · rw [← Nat.mod_eq_of_lt hp.one_lt, ← ZMod.natCast_eq_natCast_iff', Nat.cast_pow, h, Nat.cast_one]
  · rw [← Nat.mod_eq_of_lt (Nat.sub_one_lt hp.ne_zero), ← ZMod.natCast_eq_natCast_iff', Nat.cast_pow, h,
      Nat.cast_pred hp.pos, ZMod.natCast_self, zero_sub]

/-- A non-zero number that is no square mod `p` has Euler's power −1 (R143 item 2). -/
theorem pow_halfModulus_eq_pred {v : ℕ} (hv : v ≠ 0) (hvp : v < modulus) (hne : v ^ halfModulus % modulus ≠ 1) :
    v ^ halfModulus % modulus = modulus - 1 := by
  have hhalf : halfModulus = modulus / 2 := by decide +kernel
  rw [hhalf] at hne ⊢
  exact (pow_half_mod_eq_one_or modulus_prime hv hvp).resolve_left hne

/-- Of a non-zero number and its negative exactly one has Euler's power 1 (R143 item 6). -/
theorem pow_halfModulus_eq_one_iff_of_add {v w : ℕ} (hv : v ≠ 0) (hvp : v < modulus) (hsum : v + w = modulus) :
    v ^ halfModulus % modulus = 1 ↔ w ^ halfModulus % modulus ≠ 1 := by
  have hadd := pow_mod_add_pow_mod_of_odd modulus_prime odd_halfModulus hv hvp hsum
  have htwo : 2 < modulus := by decide +kernel
  constructor
  · omega
  · intro hw
    by_contra hne
    have hpred := pow_halfModulus_eq_pred hv hvp hne
    omega

/-! ## The inverse square root of 4 -/

/-- `p ≡ 7 (mod 8)`, so 2 is a square (R143 item 5). -/
theorem two_pow_halfModulus : 2 ^ halfModulus % modulus = 1 := by
  have : Fact modulus.Prime := ⟨modulus_prime⟩
  have htwo : 2 < modulus := by decide +kernel
  have hsquare : IsSquare ((2 : ℕ) : ZMod modulus) :=
    (ZMod.exists_sq_eq_two_iff htwo.ne').mpr (.inr (by decide +kernel))
  exact (pow_halfModulus_eq_one_iff htwo).mpr ⟨two_ne_zero, (isSquare_natCast_iff htwo).mp hsquare⟩

/-- A reduced number whose double is 1 is one half. -/
theorem eq_half_of_mul_two_mod {p x : ℕ} (hx : x < p) (h : x * 2 % p = 1) : x = (p + 1) / 2 := by
  obtain hlt | hle := lt_or_ge (x * 2) p
  · rw [Nat.mod_eq_of_lt hlt] at h
    omega
  · rw [Nat.mod_eq_sub_mod hle, Nat.mod_eq_of_lt (by omega)] at h
    omega

theorem four_pow_mul_two (n : ℕ) : 4 ^ n * 2 = 2 ^ (2 * n + 1) := by
  rw [pow_succ, pow_mul, show 2 ^ 2 = 4 from rfl]

theorem four_pow_isrExponent : 4 ^ isrExponent % modulus = (modulus + 1) / 2 := by
  refine eq_half_of_mul_two_mod (Nat.mod_lt _ modulus_pos) ?_
  have hexp : 2 * isrExponent + 1 = halfModulus := by decide +kernel
  rw [Nat.mod_mul_mod, four_pow_mul_two, hexp]
  exact two_pow_halfModulus

end Sys2Proof

namespace Sys2Proof.Machine

/-! ## Mask and result of ISR in the corner cases -/

theorem isr_mask_eq_all0_iff {rd ra : Reg} {s t : State} (h : WR (s.reg ra)) (ht : exec (.isr rd ra) s = .next t) :
    t.mask = all0 ↔ residue (s.reg ra) ^ halfModulus % modulus ≠ 1 := by
  obtain rfl := next_inj ((exec_isr_of_WR rd h).symm.trans ht)
  rw [State.retire_mask, State.writeMask_mask, maskOf_eq_all0, beq_eq_false_iff_ne]

/-- Settles O39: the masks compare Euler's power of the two residues with 1, and the powers are opposite. -/
theorem isrSucceedsOnOneOfTwoNegatives : Obligations.IsrSucceedsOnOneOfTwoNegatives := by
  intro rd ra rd' rb s t u ha hb hv hsum ht hu
  have hone := pow_halfModulus_eq_one_iff_of_add hv (residue_lt _) hsum
  rw [isr_mask_eq_all1_iff ha ht, isr_mask_eq_all0_iff ha ht, isr_mask_eq_all1_iff hb hu, isr_mask_eq_all0_iff hb hu]
  by_cases hsquare : residue (s.reg ra) ^ halfModulus % modulus = 1
  · exact .inl ⟨hsquare, hone.mp hsquare⟩
  · exact .inr ⟨hsquare, not_not.mp (mt hone.mpr hsquare)⟩

/-- Settles O40: result and mask are powers of the residue, and each clause is the value of a power. -/
theorem isrCornerCases : Obligations.IsrCornerCases := by
  intro rd ra s t h ht
  rw [isr_mask_eq_all0_iff h ht, isr_mask_eq_all1_iff h ht, residue_reg_isr h ht]
  refine ⟨fun hzero => ?_, fun hv hfails => ?_, fun hneg => ?_, fun hfour => ?_⟩
  · rw [hzero, zero_pow_mod_of_odd odd_halfModulus, zero_pow_mod_of_odd odd_isrExponent]
    exact ⟨zero_ne_one, rfl⟩
  · rw [pow_isrExponent_sq_mul]
    exact pow_halfModulus_eq_pred hv (residue_lt _) hfails
  · rw [hneg, pred_pow_mod_of_odd modulus_prime odd_halfModulus, pred_pow_mod_of_odd modulus_prime odd_isrExponent]
    exact ⟨by decide +kernel, rfl⟩
  · rw [hfour]
    have hsquare : 4 ^ halfModulus % modulus = 1 :=
      (pow_halfModulus_eq_one_iff (by decide +kernel)).mpr ⟨four_ne_zero, 2, by decide +kernel⟩
    exact ⟨hsquare, four_pow_isrExponent⟩

end Sys2Proof.Machine
end

section
/-! PROOFS. The example words of the encoding (spec 30_encoding.md section 5). -/

namespace Sys2Proof

/-- Settles O5: each word is evaluated. -/
theorem exampleWordsDecode : Obligations.ExampleWordsDecode :=
  ⟨by decide, by decide, by decide, by decide, by decide⟩

end Sys2Proof
end
